-- ==== Sys2Proof/Word.lean ====
section
/-! DEFINITION. The machine's word types (spec 00_scope.md R6, R7 and section 4): every quantity is an unsigned
integer of a fixed width; nothing is ever sign-extended. -/

namespace Sys2Proof

/-- An 8-bit value: a general register, a timer, a memory byte, an immediate `nn` (R4 `V_WIDTH`, `TIMER_WIDTH`). -/
abbrev Byte := BitVec 8

/-- A 16-bit value: `I`, `PC`, a stack entry, the instruction word `w` (R4 `I_WIDTH`, `PC_WIDTH`, `STACK_WIDTH`). -/
abbrev Word := BitVec 16

/-- The 12-bit immediate `nnn = w[11:0]` (R7). -/
abbrev Imm12 := BitVec 12

/-- A 4-bit field of the instruction word: `op`, `x`, `y`, `n` (R7). -/
abbrev Nibble := BitVec 4

/-- A register index 0..15; `V[15]` is `VF` (R7, R11). -/
abbrev Reg := Fin 16

/-- A key index 0..15 (R20). -/
abbrev Key := Fin 16

/-- `VF`, the flag register `V[15]` (R12). -/
abbrev VF : Reg := 15

end Sys2Proof
end

