-- ==== Sys2Proof/Config.lean ====
section
/-! DEFINITION. What one implementation fixes (spec 00_scope.md R4, R5) and the free random bytes (10_state.md R23).
The fixed parameters of R4 are constants; the open parameters of R5 are the fields of `Config`, one plain-data record
that the machine carries and nothing ever changes, so that a claim about every state is a claim about every setting. -/

namespace Sys2Proof

/-- The keypad flags `KEY[0..15]` (10_state.md R20); also a set of pressed keys, as `KEY_PICK` takes one. -/
abbrev Keypad := Vector Bool 16

/-- The 80 font bytes `FONT` (20_memory.md R52): 16 glyphs of 5 bytes. -/
abbrev Font := Vector Byte 80

/-- `SHIFT_SRC` (R5, D14): which register `SHR` and `SHL` shift. -/
inductive ShiftSrc where
  /-- shift `V[x]` in place, `y` ignored -/
  | vx
  /-- shift `V[y]` into `V[x]` -/
  | vy
  deriving DecidableEq, Repr

/-- The open parameters of R5, apart from the free byte `rnd`. `keyPick` is `KEY_PICK` as plain data: a table of the
key sets for which the choice is NOT the minimum; the empty table is the spec's default (`pickKey` in Machine/Operands.lean
reads it, and every `KEY_PICK` function is such a table). -/
structure Config where
  shiftSrc : ShiftSrc
  extJpV0  : Bool
  keyPick  : List (Keypad × Key)
  font     : Font
  deriving DecidableEq, Repr

namespace Config

/-- `MEM_SIZE`: bytes of memory (R4). -/
abbrev memSize : Nat := 4096
/-- `FONT_BASE`: address of the first font byte (R4). -/
abbrev fontBase : Nat := 0x000
/-- `FONT_GLYPHS` (R4). -/
abbrev fontGlyphs : Nat := 16
/-- `FONT_STRIDE`: bytes per glyph (R4). -/
abbrev fontStride : Nat := 5
/-- `PROG_BASE`: the ROM's load address and the reset value of `PC` (R4). -/
abbrev progBase : Nat := 0x200
/-- `ROM_MAX`: the largest ROM in bytes, `MEM_SIZE - PROG_BASE` (R4). -/
abbrev romMax : Nat := 3584
/-- `STACK_DEPTH` (R4). -/
abbrev stackDepth : Nat := 16
/-- `FB_W` (R4). -/
abbrev fbWidth : Nat := 64
/-- `FB_H` (R4). -/
abbrev fbHeight : Nat := 32
/-- `INSTR_BYTES` (R4). -/
abbrev instrBytes : Nat := 2

/-- The free random bytes `rnd` (10_state.md R23, 45_timers_random_key.md R174): the byte of the `k`-th draw, under no
law; used where the test bench has supplied none (log entry 3). -/
opaque freeRnd : Nat → Byte

end Config

end Sys2Proof
end

