-- ==== Sys2Proof/Syntax.lean ====
section
/-! DEFINITION. The instructions: one constructor per row of spec/opcode_table.json (30_encoding.md R65), in the table's
order, with the fields of R7. The field types have the fields' own widths, so no term holds an operand out of range. -/

namespace Sys2Proof

/-- The 34 instructions of the opcode map (R65). -/
inductive Instr where
  /-- `00E0` `CLS` (R100) -/
  | cls
  /-- `00EE` `RET` (R101) -/
  | ret
  /-- `1nnn` `JP nnn` (R102) -/
  | jp (nnn : Imm12)
  /-- `2nnn` `CALL nnn` (R103) -/
  | call (nnn : Imm12)
  /-- `3xnn` `SE Vx, nn` (R104) -/
  | seImm (x : Reg) (nn : Byte)
  /-- `4xnn` `SNE Vx, nn` (R105) -/
  | sneImm (x : Reg) (nn : Byte)
  /-- `5xy0` `SE Vx, Vy` (R106) -/
  | seReg (x y : Reg)
  /-- `9xy0` `SNE Vx, Vy` (R107) -/
  | sneReg (x y : Reg)
  /-- `Ex9E` `SKP Vx` (R108) -/
  | skp (x : Reg)
  /-- `ExA1` `SKNP Vx` (R109) -/
  | sknp (x : Reg)
  /-- `6xnn` `LD Vx, nn` (R120) -/
  | ldImm (x : Reg) (nn : Byte)
  /-- `7xnn` `ADD Vx, nn` (R121) -/
  | addImm (x : Reg) (nn : Byte)
  /-- `8xy0` `LD Vx, Vy` (R122) -/
  | ldReg (x y : Reg)
  /-- `8xy1` `OR Vx, Vy` (R123) -/
  | orReg (x y : Reg)
  /-- `8xy2` `AND Vx, Vy` (R124) -/
  | andReg (x y : Reg)
  /-- `8xy3` `XOR Vx, Vy` (R125) -/
  | xorReg (x y : Reg)
  /-- `8xy4` `ADD Vx, Vy` (R126) -/
  | addReg (x y : Reg)
  /-- `8xy5` `SUB Vx, Vy` (R127) -/
  | sub (x y : Reg)
  /-- `8xy7` `SUBN Vx, Vy` (R128) -/
  | subn (x y : Reg)
  /-- `8xy6` `SHR Vx {, Vy}` (R129) -/
  | shr (x y : Reg)
  /-- `8xyE` `SHL Vx {, Vy}` (R130) -/
  | shl (x y : Reg)
  /-- `Annn` `LD I, nnn` (R140) -/
  | ldI (nnn : Imm12)
  /-- `Fx1E` `ADD I, Vx` (R141) -/
  | addI (x : Reg)
  /-- `Fx29` `LD F, Vx` (R142) -/
  | ldF (x : Reg)
  /-- `Fx33` `LD B, Vx` (R143) -/
  | ldB (x : Reg)
  /-- `Fx55` `LD [I], Vx` (R144) -/
  | storeRegs (x : Reg)
  /-- `Fx65` `LD Vx, [I]` (R145) -/
  | loadRegs (x : Reg)
  /-- `Dxyn` `DRW Vx, Vy, n` (R160) -/
  | drw (x y : Reg) (n : Nibble)
  /-- `Fx07` `LD Vx, DT` (R170) -/
  | ldFromDt (x : Reg)
  /-- `Fx15` `LD DT, Vx` (R171) -/
  | ldDt (x : Reg)
  /-- `Fx18` `LD ST, Vx` (R172) -/
  | ldSt (x : Reg)
  /-- `Cxnn` `RND Vx, nn` (R174) -/
  | rnd (x : Reg) (nn : Byte)
  /-- `Fx0A` `LD Vx, K` (R175) -/
  | ldKey (x : Reg)
  /-- `Bnnn` `JP V0, nnn`, an instruction only when `EXT_JP_V0 = true` (R110) -/
  | jpV0 (nnn : Imm12)
  deriving DecidableEq, Repr

end Sys2Proof
end

