-- ==== Sys2Proof/WellFormed.lean ====
section
/-! DEFINITION. Which terms of `Instr` are instructions of a machine: every operand is in range by its type, so the one
check left is R110's: `JP V0, nnn` is an instruction only when `EXT_JP_V0 = true` (41_control_flow.md). -/

namespace Sys2Proof

/-- `i` is an instruction of a machine whose parameter `EXT_JP_V0` is `ext` (R65, R110). -/
def Instr.wellFormed (ext : Bool) : Instr → Bool
  | .cls | .ret | .jp _ | .call _ | .seImm _ _ | .sneImm _ _ | .seReg _ _ | .sneReg _ _ | .skp _ | .sknp _ => true
  | .ldImm _ _ | .addImm _ _ | .ldReg _ _ | .orReg _ _ | .andReg _ _ | .xorReg _ _ => true
  | .addReg _ _ | .sub _ _ | .subn _ _ | .shr _ _ | .shl _ _ => true
  | .ldI _ | .addI _ | .ldF _ | .ldB _ | .storeRegs _ | .loadRegs _ | .drw _ _ _ => true
  | .ldFromDt _ | .ldDt _ | .ldSt _ | .rnd _ _ | .ldKey _ => true
  | .jpV0 _ => ext

end Sys2Proof
end

