-- ==== Sys2Proof/Decode.lean ====
section
/-! DEFINITION. Decoding (spec 30_encoding.md R60–R69), total on every byte list and rejecting by name, and after it the
encoder (R71), written from the same map R65. -/

namespace Sys2Proof

/-! ### Fields of the instruction word (R7) -/

/-- `op = w[15:12]`. -/
def opField (w : Word) : Nibble := w.extractLsb' 12 4
/-- `w[11:8]` as a register index: the field `x`. -/
def xField (w : Word) : Reg := (w.extractLsb' 8 4).toFin
/-- `w[7:4]` as a register index: the field `y`. -/
def yField (w : Word) : Reg := (w.extractLsb' 4 4).toFin
/-- `n = w[3:0]`. -/
def nField (w : Word) : Nibble := w.extractLsb' 0 4
/-- `nn = w[7:0]`. -/
def nnField (w : Word) : Byte := w.extractLsb' 0 8
/-- `nnn = w[11:0]`. -/
def nnnField (w : Word) : Imm12 := w.extractLsb' 0 12

/-- The word of two bytes, the first the high byte (R44, R60): `hi : lo`. -/
def wordOfBytes (hi lo : Byte) : Word := hi ++ lo
/-- The byte stored at the lower address: `w[15:8]` (R71). -/
def highByte (w : Word) : Byte := w.extractLsb' 8 8
/-- The byte stored at the higher address: `w[7:0]` (R71). -/
def lowByte (w : Word) : Byte := w.extractLsb' 0 8

/-- Why the decoder gives no instruction. -/
inductive Reject where
  /-- `InvalidOpcode(w)`: the word is none of the map's (R67); safe, the fetching tick raises the fault R201 -/
  | invalidOpcode (w : Word)
  /-- fewer than two bytes were given (R60: every instruction is two bytes); safe, no tick raises it, a fetch reads two -/
  | truncated
  deriving DecidableEq, Repr

/-! ### The decode procedure (R64) -/

/-- Nibble 0x0: only the two whole words `00E0` and `00EE`. -/
def decode0 (w : Word) : Except Reject Instr :=
  if w = 0x00E0#16 then .ok .cls
  else if w = 0x00EE#16 then .ok .ret
  else .error (.invalidOpcode w)

/-- Nibble 0x8: the register operations, by the low nibble. -/
def decode8 (w : Word) : Except Reject Instr :=
  match (nField w).toNat with
  | 0x0 => .ok (.ldReg (xField w) (yField w))
  | 0x1 => .ok (.orReg (xField w) (yField w))
  | 0x2 => .ok (.andReg (xField w) (yField w))
  | 0x3 => .ok (.xorReg (xField w) (yField w))
  | 0x4 => .ok (.addReg (xField w) (yField w))
  | 0x5 => .ok (.sub (xField w) (yField w))
  | 0x6 => .ok (.shr (xField w) (yField w))
  | 0x7 => .ok (.subn (xField w) (yField w))
  | 0xE => .ok (.shl (xField w) (yField w))
  | _ => .error (.invalidOpcode w)

/-- Nibble 0xE: the key skips, by the low byte. -/
def decodeE (w : Word) : Except Reject Instr :=
  match (nnField w).toNat with
  | 0x9E => .ok (.skp (xField w))
  | 0xA1 => .ok (.sknp (xField w))
  | _ => .error (.invalidOpcode w)

/-- Nibble 0xF: the one-register instructions, by the low byte. -/
def decodeF (w : Word) : Except Reject Instr :=
  match (nnField w).toNat with
  | 0x07 => .ok (.ldFromDt (xField w))
  | 0x0A => .ok (.ldKey (xField w))
  | 0x15 => .ok (.ldDt (xField w))
  | 0x18 => .ok (.ldSt (xField w))
  | 0x1E => .ok (.addI (xField w))
  | 0x29 => .ok (.ldF (xField w))
  | 0x33 => .ok (.ldB (xField w))
  | 0x55 => .ok (.storeRegs (xField w))
  | 0x65 => .ok (.loadRegs (xField w))
  | _ => .error (.invalidOpcode w)

/-- `Decode(w)` of R64, for a machine whose parameter `EXT_JP_V0` is `ext`. The fields `5` and `9` require `n = 0`
(D15, C10); the nibble `op` has sixteen values, so the last arm is `0xF`. -/
def decodeWord (ext : Bool) (w : Word) : Except Reject Instr :=
  match (opField w).toNat with
  | 0x0 => decode0 w
  | 0x1 => .ok (.jp (nnnField w))
  | 0x2 => .ok (.call (nnnField w))
  | 0x3 => .ok (.seImm (xField w) (nnField w))
  | 0x4 => .ok (.sneImm (xField w) (nnField w))
  | 0x5 => if nField w = 0#4 then .ok (.seReg (xField w) (yField w)) else .error (.invalidOpcode w)
  | 0x6 => .ok (.ldImm (xField w) (nnField w))
  | 0x7 => .ok (.addImm (xField w) (nnField w))
  | 0x8 => decode8 w
  | 0x9 => if nField w = 0#4 then .ok (.sneReg (xField w) (yField w)) else .error (.invalidOpcode w)
  | 0xA => .ok (.ldI (nnnField w))
  | 0xB => if ext then .ok (.jpV0 (nnnField w)) else .error (.invalidOpcode w)
  | 0xC => .ok (.rnd (xField w) (nnField w))
  | 0xD => .ok (.drw (xField w) (yField w) (nField w))
  | 0xE => decodeE w
  | _ => decodeF w

/-- The first instruction of a byte stream and the bytes after it (R60: two bytes, high byte first). -/
def decode (ext : Bool) : List Byte → Except Reject (Instr × List Byte)
  | hi :: lo :: rest =>
    match decodeWord ext (wordOfBytes hi lo) with
    | .ok i => .ok (i, rest)
    | .error e => .error e
  | _ => .error .truncated

/-! ### The encoder (R71) -/

/-- A register index as a 4-bit field. -/
def regBits (r : Reg) : Nibble := BitVec.ofFin r

/-- Format A: `op : nnn`. -/
def formatA (op : Nibble) (nnn : Imm12) : Word := op ++ nnn
/-- Format I: `op : x : nn`. -/
def formatI (op : Nibble) (x : Reg) (nn : Byte) : Word := op ++ (regBits x ++ nn)
/-- Formats R and D: `op : x : y : n`, with `n` the function nibble or the row count. -/
def formatR (op : Nibble) (x y : Reg) (n : Nibble) : Word := op ++ (regBits x ++ (regBits y ++ n))
/-- Format X: `op : x : function`. -/
def formatX (op : Nibble) (x : Reg) (fn : Byte) : Word := op ++ (regBits x ++ fn)

/-- The word of an instruction (R71, with the fixed digits of R65). -/
def encode : Instr → Word
  | .cls => 0x00E0#16
  | .ret => 0x00EE#16
  | .jp nnn => formatA 0x1 nnn
  | .call nnn => formatA 0x2 nnn
  | .seImm x nn => formatI 0x3 x nn
  | .sneImm x nn => formatI 0x4 x nn
  | .seReg x y => formatR 0x5 x y 0x0
  | .sneReg x y => formatR 0x9 x y 0x0
  | .skp x => formatX 0xE x 0x9E
  | .sknp x => formatX 0xE x 0xA1
  | .ldImm x nn => formatI 0x6 x nn
  | .addImm x nn => formatI 0x7 x nn
  | .ldReg x y => formatR 0x8 x y 0x0
  | .orReg x y => formatR 0x8 x y 0x1
  | .andReg x y => formatR 0x8 x y 0x2
  | .xorReg x y => formatR 0x8 x y 0x3
  | .addReg x y => formatR 0x8 x y 0x4
  | .sub x y => formatR 0x8 x y 0x5
  | .subn x y => formatR 0x8 x y 0x7
  | .shr x y => formatR 0x8 x y 0x6
  | .shl x y => formatR 0x8 x y 0xE
  | .ldI nnn => formatA 0xA nnn
  | .addI x => formatX 0xF x 0x1E
  | .ldF x => formatX 0xF x 0x29
  | .ldB x => formatX 0xF x 0x33
  | .storeRegs x => formatX 0xF x 0x55
  | .loadRegs x => formatX 0xF x 0x65
  | .drw x y n => formatR 0xD x y n
  | .ldFromDt x => formatX 0xF x 0x07
  | .ldDt x => formatX 0xF x 0x15
  | .ldSt x => formatX 0xF x 0x18
  | .rnd x nn => formatI 0xC x nn
  | .ldKey x => formatX 0xF x 0x0A
  | .jpV0 nnn => formatA 0xB nnn

/-- The bytes of an instruction, in address order (R71). -/
def encodeBytes (i : Instr) : List Byte := [highByte (encode i), lowByte (encode i)]

/-! ### The opcode map (R65) as data -/

/-- `match` of an instruction's row of R65: the row's fixed bits. -/
def Instr.rowMatch : Instr → Word
  | .cls => 0x00E0 | .ret => 0x00EE | .jp _ => 0x1000 | .call _ => 0x2000
  | .seImm _ _ => 0x3000 | .sneImm _ _ => 0x4000 | .seReg _ _ => 0x5000 | .sneReg _ _ => 0x9000
  | .skp _ => 0xE09E | .sknp _ => 0xE0A1
  | .ldImm _ _ => 0x6000 | .addImm _ _ => 0x7000
  | .ldReg _ _ => 0x8000 | .orReg _ _ => 0x8001 | .andReg _ _ => 0x8002 | .xorReg _ _ => 0x8003
  | .addReg _ _ => 0x8004 | .sub _ _ => 0x8005 | .subn _ _ => 0x8007 | .shr _ _ => 0x8006 | .shl _ _ => 0x800E
  | .ldI _ => 0xA000 | .addI _ => 0xF01E | .ldF _ => 0xF029 | .ldB _ => 0xF033
  | .storeRegs _ => 0xF055 | .loadRegs _ => 0xF065 | .drw _ _ _ => 0xD000
  | .ldFromDt _ => 0xF007 | .ldDt _ => 0xF015 | .ldSt _ => 0xF018
  | .rnd _ _ => 0xC000 | .ldKey _ => 0xF00A | .jpV0 _ => 0xB000

/-- `mask` of an instruction's row of R65: which bits the row fixes. -/
def Instr.rowMask : Instr → Word
  | .cls => 0xFFFF | .ret => 0xFFFF | .jp _ => 0xF000 | .call _ => 0xF000
  | .seImm _ _ => 0xF000 | .sneImm _ _ => 0xF000 | .seReg _ _ => 0xF00F | .sneReg _ _ => 0xF00F
  | .skp _ => 0xF0FF | .sknp _ => 0xF0FF
  | .ldImm _ _ => 0xF000 | .addImm _ _ => 0xF000
  | .ldReg _ _ => 0xF00F | .orReg _ _ => 0xF00F | .andReg _ _ => 0xF00F | .xorReg _ _ => 0xF00F
  | .addReg _ _ => 0xF00F | .sub _ _ => 0xF00F | .subn _ _ => 0xF00F | .shr _ _ => 0xF00F | .shl _ _ => 0xF00F
  | .ldI _ => 0xF000 | .addI _ => 0xF0FF | .ldF _ => 0xF0FF | .ldB _ => 0xF0FF
  | .storeRegs _ => 0xF0FF | .loadRegs _ => 0xF0FF | .drw _ _ _ => 0xF000
  | .ldFromDt _ => 0xF0FF | .ldDt _ => 0xF0FF | .ldSt _ => 0xF0FF
  | .rnd _ _ => 0xF000 | .ldKey _ => 0xF0FF | .jpV0 _ => 0xF000

/-- The invalid words of R67's table, range by range. -/
def invalidWord (ext : Bool) (w : Word) : Bool :=
  match (opField w).toNat with
  | 0x0 => w != 0x00E0#16 && w != 0x00EE#16
  | 0x5 => nField w != 0#4
  | 0x8 => [0x8, 0x9, 0xA, 0xB, 0xC, 0xD, 0xF].contains (nField w).toNat
  | 0x9 => nField w != 0#4
  | 0xB => !ext
  | 0xE => !([0x9E, 0xA1].contains (nnField w).toNat)
  | 0xF => !([0x07, 0x0A, 0x15, 0x18, 0x1E, 0x29, 0x33, 0x55, 0x65].contains (nnField w).toNat)
  | _ => false

/-! ### The table's words -/

/-- The first word of a table word whose bits are `w`: bits above `nbits` are 0, bit 0 is the word's least significant. -/
def tableWord (nbits w : Nat) : Word := BitVec.ofNat 16 (w % 2 ^ nbits)

/-- The instruction the decoder reads from a row's word laid out in memory order (high byte first, R44). The table holds
the optional row `Bnnn`, so it is read with the extension enabled (log entry 6). -/
def decodeTableWord (nbits w : Nat) : Option Instr :=
  match decode true [highByte (tableWord nbits w), lowByte (tableWord nbits w)] with
  | .ok (i, _) => some i
  | .error _ => none

end Sys2Proof
end

