-- ==== Sys2Proof/Machine/Params.lean ====
section
/-! DEFINITION. The setting of the open parameters that the reset state carries (spec 00_scope.md R5, 20_memory.md R52). -/

namespace Sys2Proof

namespace Config

/-- The default of `FONT`, the customary glyphs (R52; the spec's general knowledge G3), glyph `d` at `5 * d`. -/
def defaultFont : Font :=
  #v[0xF0, 0x90, 0x90, 0x90, 0xF0,   -- 0
     0x20, 0x60, 0x20, 0x20, 0x70,   -- 1
     0xF0, 0x10, 0xF0, 0x80, 0xF0,   -- 2
     0xF0, 0x10, 0xF0, 0x10, 0xF0,   -- 3
     0x90, 0x90, 0xF0, 0x10, 0x10,   -- 4
     0xF0, 0x80, 0xF0, 0x10, 0xF0,   -- 5
     0xF0, 0x80, 0xF0, 0x90, 0xF0,   -- 6
     0xF0, 0x10, 0x20, 0x40, 0x40,   -- 7
     0xF0, 0x90, 0xF0, 0x90, 0xF0,   -- 8
     0xF0, 0x90, 0xF0, 0x10, 0xF0,   -- 9
     0xF0, 0x90, 0xF0, 0x90, 0x90,   -- A
     0xE0, 0x90, 0xE0, 0x90, 0xE0,   -- B
     0xF0, 0x80, 0x80, 0x80, 0xF0,   -- C
     0xE0, 0x90, 0x90, 0x90, 0xE0,   -- D
     0xF0, 0x80, 0xF0, 0x80, 0xF0,   -- E
     0xF0, 0x80, 0xF0, 0x80, 0x80]   -- F

/-- The setting the reset state carries: R5's suggested defaults. R5 suggests none for `SHIFT_SRC`; `vx` is the model's
choice there (DESIGN CHOICE, log entry 1; no claim rests on it). -/
def standard : Config :=
  { shiftSrc := .vx, extJpV0 := false, keyPick := [], font := defaultFont }

end Config

end Sys2Proof
end

