-- ==== Sys2Proof/Machine/State.lean ====
section
/-! DEFINITION. The machine's state as plain data (spec 10_state.md R10: exactly the components of its table, under its
names), the faults it records, the refusals, the calls its driver makes, and the state after reset (R26, R241). -/

namespace Sys2Proof.Machine

open Sys2Proof

/-- The four faults (`ExecError`, 60_exceptions.md R200), recorded in `State.FAULT` by `raise`. A fault is TAKEN, as R206
describes it: the tick answers a next state with `HALTED = 1` and `FAULT` set; no step of this model ends in the outcome
`fault`. -/
inductive Fault where
  /-- raised at decode by a word that is no instruction (R201); safe: the spec's own halt -/
  | invalidOpcode (w : Word)
  /-- raised by `CALL` when `SP = 16` (R202); safe: the spec's own halt -/
  | stackOverflow
  /-- raised by `RET` when `SP = 0` (R203); safe: the spec's own halt -/
  | stackUnderflow
  /-- raised by a fetch, `LD B`, `LD [I]`, `LD Vx, [I]` or `DRW` at an address above 0xFFF (R204); the payload is the
  unbounded effective address (R42); safe: the spec's own halt -/
  | memoryOutOfRange (a : Nat)
  deriving DecidableEq, Repr

/-- Refusals. Every instruction has its meaning, so no step answers one. -/
inductive Refusal where
  /-- raised by an arm of `exec` whose instruction has no meaning yet: no arm does; safe -/
  | notModelled (mnemonic : String)
  deriving DecidableEq, Repr

/-- One call of the driver that changes the machine (R24, R221): a whole, atomic operation of one of the three agents. -/
inductive Call where
  /-- the CPU's operation `tick()` (R89) -/
  | tick
  /-- the timer's operation `tick_timers()` (R214) -/
  | tickTimers
  /-- the host's `set_key(index, pressed)` (R217) -/
  | setKey (index : Nat) (pressed : Bool)
  /-- the host's `load(bytes)` (R220) -/
  | load (bytes : List Byte)
  /-- the host's `reset()` (R240) -/
  | reset
  deriving DecidableEq, Repr

/-- Memory cells that differ from the reset contents, by strictly rising address (see `Memory.wf`). -/
abbrev Memory := List Host.Cell

/-- `FB[r][c]`, row `r` 0..31 (0 = top), column `c` 0..63 (0 = left) (R19). -/
abbrev Framebuffer := Vector (Vector Bool 64) 32

/-- Everything the spec gives the machine (R10), then the model's own fields (log entries 1 to 4). -/
structure State where
  /-- `V[0..15]` (R11) -/
  V : Vector Byte 16
  /-- the index register (R13) -/
  I : Word
  /-- the program counter (R14) -/
  PC : Word
  /-- `STACK[0..15]` (R16) -/
  STACK : Vector Word 16
  /-- the fill level, 0..16 (R16) -/
  SP : Fin 17
  /-- the delay timer (R17) -/
  DT : Byte
  /-- the sound timer (R17) -/
  ST : Byte
  /-- the 4096 bytes of memory (R18), as its difference from the reset contents -/
  MEM : Memory
  /-- the display buffer (R19) -/
  FB : Framebuffer
  /-- the keypad flags (R20) -/
  KEY : Keypad
  /-- the sub-state "awaiting key" (R21) -/
  WAIT : Option Reg
  /-- the terminal flag (R22) -/
  HALTED : Bool
  /-- the fault `tick()` re-reports (R22) -/
  FAULT : Option Fault
  /-- the MODEL's own: the open parameters of R5, which nothing changes -/
  cfg : Config
  /-- the MODEL's own: the calls the driver makes next, first first; after the last of them it calls `tick()` (R24, R246) -/
  schedule : List Call
  /-- the MODEL's own: the random bytes the test bench has supplied, first first (R225) -/
  rndIn : List Byte
  /-- the MODEL's own: how many random bytes have been drawn, the argument of `Config.freeRnd` (R23) -/
  draws : Nat
  deriving DecidableEq, Repr

/-- A display with every pixel off (R26). -/
def Framebuffer.clear : Framebuffer := Vector.replicate 32 (Vector.replicate 64 false)

/-- The state at power-on of a machine with the parameters `c` (R26, R241): memory holds its reset contents, so no cell is
listed; every key is up. -/
def State.powerOn (c : Config) : State :=
  { V := Vector.replicate 16 0
    I := 0
    PC := 0x200
    STACK := Vector.replicate 16 0
    SP := 0
    DT := 0
    ST := 0
    MEM := []
    FB := Framebuffer.clear
    KEY := Vector.replicate 16 false
    WAIT := none
    HALTED := false
    FAULT := none
    cfg := c
    schedule := []
    rndIn := []
    draws := 0 }

/-- The machine right after reset (R26, R241), with R5's suggested parameters. -/
def State.reset : State := State.powerOn Config.standard

end Sys2Proof.Machine
end

