-- ==== Sys2Proof/Machine/Ops.lean ====
section
/-! DEFINITION. The named operations over registers, memory, the stack and the program counter, and fault entry (spec
10_state.md, 20_memory.md, 40_cycle.md, 60_exceptions.md). Every meaning is built from these. -/

namespace Sys2Proof.Machine

open Sys2Proof

/-- What a tick or an instruction answers. -/
abbrev Result := Host.Outcome State Fault Refusal

/-! ### General registers (R11) -/

/-- `V[r]`. -/
def State.getV (s : State) (r : Reg) : Byte := s.V.get r

/-- `V[r] <- b`. No register is hardwired (R11). -/
def State.setV (s : State) (r : Reg) (b : Byte) : State := { s with V := s.V.set r.val b r.isLt }

/-- The sequencing invariant of R12: `V[x] <- result`, and only then `V[15] <- flag`. -/
def State.setResultThenFlag (s : State) (x : Reg) (result flag : Byte) : State :=
  (s.setV x result).setV VF flag

/-- The registers in ascending order. -/
def allRegs : List Reg := [0, 1, 2, 3, 4, 5, 6, 7, 8, 9, 10, 11, 12, 13, 14, 15]

/-- `V[0], …, V[x]`, the block of `LD [I], Vx` and `LD Vx, [I]` (R144, R145). -/
def regsUpTo (x : Reg) : List Reg := allRegs.take (x.val + 1)

/-! ### Fault entry (R206) and the way out (R209, R240) -/

/-- `raise f`: `HALTED <- 1`, `FAULT <- f`, the rest of the tick does not run (R206, R87). Nothing is saved, `PC` is not
redirected. -/
def raise (f : Fault) (s : State) : Result := .next { s with HALTED := true, FAULT := some f }

/-- `reset()` (R240), the only way out of the halted state (R209): every component at its reset value, `KEY` untouched,
the random source untouched (R26). -/
def State.hostReset (s : State) : State :=
  { State.powerOn s.cfg with KEY := s.KEY, schedule := s.schedule, rndIn := s.rndIn, draws := s.draws }

/-! ### Memory (R40–R48, R52) -/

/-- What an unlisted address reads as: the reset contents, the 80 font bytes from address 0 and 0x00 everywhere else
(R26, R41, R52). -/
def Memory.resetByte (font : Font) (a : Nat) : Byte := if h : a < 80 then font[a] else 0x00

/-- The byte at an address. -/
def Memory.read (font : Font) : Memory → Nat → Byte
  | [], a => Memory.resetByte font a
  | c :: m, a => if a = c.1 then c.2 else Memory.read font m a

/-- The cells of every other address. -/
def Memory.erase (m : Memory) (a : Nat) : Memory := m.filter (fun c => c.1 != a)

/-- A cell put in its place by address. -/
def Memory.insert (a : Nat) (v : Byte) : Memory → Memory
  | [] => [(a, v)]
  | c :: m => if a < c.1 then (a, v) :: c :: m else c :: Memory.insert a v m

/-- One byte written, the canonical form kept: the reset contents are never listed. -/
def Memory.write (font : Font) (m : Memory) (a : Nat) (v : Byte) : Memory :=
  if v = Memory.resetByte font a then m.erase a else Memory.insert a v (m.erase a)

/-- The canonical form: addresses strictly rise, stay below 4096, and no cell equals the reset contents. -/
abbrev Memory.wf (font : Font) (m : Memory) : Prop :=
  m.Pairwise (fun c d => c.1 < d.1) ∧ ∀ c ∈ m, c.1 < 4096 ∧ c.2 ≠ Memory.resetByte font c.1

/-- `MEM[a]`. -/
def State.readByte (s : State) (a : Nat) : Byte := Memory.read s.cfg.font s.MEM a

/-- `MEM[a] <- v`. -/
def State.writeByte (s : State) (a : Nat) (v : Byte) : State :=
  { s with MEM := Memory.write s.cfg.font s.MEM a v }

/-- `MemRead(a, 1)` (R42): the address is an unbounded integer, checked and never wrapped. -/
def State.memRead (s : State) (a : Nat) : Except Fault Byte :=
  if a > 0xFFF then .error (.memoryOutOfRange a) else .ok (s.readByte a)

/-- `MemWrite(a, 1, v)` (R42). -/
def State.memWrite (s : State) (a : Nat) (v : Byte) : Except Fault State :=
  if a > 0xFFF then .error (.memoryOutOfRange a) else .ok (s.writeByte a v)

/-- Bytes written one at a time in ascending address order, each checked when it is written (R46): at the first address
out of range the fault is raised, and the bytes before it stay written (R47). -/
def storeBytes : Nat → List Byte → State → Result
  | _, [], s => .next s
  | a, b :: bs, s =>
    match s.memWrite a b with
    | .ok s' => storeBytes (a + 1) bs s'
    | .error f => raise f s

/-- `V[r] <- MemRead(base + r, 1)` for each listed register in turn (R46, R145): at the first address out of range the
fault is raised, and the registers before it stay loaded (R47). -/
def loadFrom (base : Nat) : List Reg → State → Result
  | [], s => .next s
  | r :: rs, s =>
    match s.memRead (base + r.val) with
    | .ok b => loadFrom base rs (s.setV r b)
    | .error f => raise f s

/-- The bytes of a ROM image written from an address on, unchecked: `load` checks the length first (R220). -/
def State.writeBytes : State → Nat → List Byte → State
  | s, _, [] => s
  | s, a, b :: bs => State.writeBytes (s.writeByte a b) (a + 1) bs

/-! ### Program counter (R14, R84, R90) and fetch (R83) -/

/-- `PC <- (PC + 2) mod 0x10000`: the advance of R84. -/
def State.advance (s : State) : State := { s with PC := s.PC + 2 }

/-- `Skip()` (R90): two further bytes, nothing read or decoded. -/
def State.skip (s : State) : State := { s with PC := s.PC + 2 }

/-- `if c: Skip()`, the body of the six skips. -/
def State.skipIf (s : State) (c : Bool) : State := if c then s.skip else s

/-- `PC <- target`. -/
def State.jump (s : State) (target : Word) : State := { s with PC := target }

/-- The fetch (R83): the bytes at `PC` and `PC + 1`, neither address reduced, the first the high byte (R44). -/
def State.fetch (s : State) : Except Fault Word :=
  match s.memRead s.PC.toNat with
  | .error f => .error f
  | .ok hi =>
    match s.memRead (s.PC.toNat + 1) with
    | .error f => .error f
    | .ok lo => .ok (wordOfBytes hi lo)

/-! ### Call stack (R16) -/

/-- Push: `STACK[SP] <- v; SP <- SP + 1`, or `StackOverflow` when `SP = 16`. -/
def State.push (s : State) (v : Word) : Except Fault State :=
  if h : s.SP.val < 16 then
    .ok { s with STACK := s.STACK.set s.SP.val v h, SP := ⟨s.SP.val + 1, Nat.succ_lt_succ h⟩ }
  else .error .stackOverflow

/-- Pop: `SP <- SP - 1; result <- STACK[SP]`, or `StackUnderflow` when `SP = 0`; the entry is not cleared. -/
def State.pop (s : State) : Except Fault (Word × State) :=
  if h : s.SP.val = 0 then .error .stackUnderflow
  else
    .ok (s.STACK[s.SP.val - 1]'(by have := s.SP.isLt; omega),
      { s with SP := ⟨s.SP.val - 1, by have := s.SP.isLt; omega⟩ })

/-! ### Random input (R23, R174, R225) -/

/-- `Draw rnd`: the next byte the test bench has supplied, else a free byte; one byte is consumed (log entry 3). -/
def State.drawRnd (s : State) : Byte × State :=
  match s.rndIn with
  | b :: bs => (b, { s with rndIn := bs, draws := s.draws + 1 })
  | [] => (Config.freeRnd s.draws, { s with draws := s.draws + 1 })

end Sys2Proof.Machine
end

