-- ==== Sys2Proof/Machine/Operands.lean ====
section
/-! DEFINITION. Operand forms (spec 30_encoding.md R62, R63): zero-extended immediates, the low nibble of a register, the
effective address `I + i`, the shifts' source, decimal digits, display coordinates, the choice among pressed keys. -/

namespace Sys2Proof.Machine

open Sys2Proof

/-- `zext_16(nnn)` (R63): an absolute address. -/
def zext16 (nnn : Imm12) : Word := nnn.setWidth 16

/-- `zext_16(V[x])` (R141, R110). -/
def zextByte (b : Byte) : Word := b.setWidth 16

/-- `b & 0xF` as an index: the key of `SKP` and `SKNP` (R108, R109), the digit of `LD F` (R142). -/
def lowNibble (b : Byte) : Fin 16 := ⟨b.toNat % 16, Nat.mod_lt _ (by decide)⟩

/-- The address of the glyph of digit `d`: `FONT_BASE + FONT_STRIDE * d` (R142). -/
def glyphAddress (d : Fin 16) : Word := BitVec.ofNat 16 (Config.fontBase + Config.fontStride * d.val)

/-- The effective address `I + k`, an unbounded integer (R42; the machine's one addressing mode, 43_index_memory.md). -/
def State.ea (s : State) (k : Nat) : Nat := s.I.toNat + k

/-- The source of `SHR` and `SHL` (R129): `V[y]` when `SHIFT_SRC = VY`, else `V[x]`. -/
def State.shiftSource (s : State) (x y : Reg) : Byte :=
  match s.cfg.shiftSrc with
  | .vx => s.getV x
  | .vy => s.getV y

/-- The three decimal digits of a byte, hundreds first (R143, D23). -/
def bcdDigits (v : Byte) : List Byte :=
  [BitVec.ofNat 8 (v.toNat / 100), BitVec.ofNat 8 (v.toNat / 10 % 10), BitVec.ofNat 8 (v.toNat % 10)]

/-- The display column of sprite bit `col` drawn at `x0`: reduced modulo 64 (R160). -/
def pixelCol (x0 : Byte) (col : Nat) : Fin 64 := ⟨(x0.toNat + col) % 64, Nat.mod_lt _ (by decide)⟩

/-- The display row of sprite row `row` drawn at `y0`: reduced modulo 32 (R160). -/
def pixelRow (y0 : Byte) (row : Nat) : Fin 32 := ⟨(y0.toNat + row) % 32, Nat.mod_lt _ (by decide)⟩

/-- Sprite bit `col` of a row byte: bit 7 is the leftmost pixel (R160, D22). -/
def spriteBit (b : Byte) (col : Nat) : Bool := b.getLsbD (7 - col)

/-- The key indices in ascending order. -/
def allKeys : List Key := [0, 1, 2, 3, 4, 5, 6, 7, 8, 9, 10, 11, 12, 13, 14, 15]

/-- `KEY[k]`. -/
def keyDown (keys : Keypad) (k : Key) : Bool := keys.get k

/-- Is any key down (R82: `pressed ≠ {}`)? -/
def anyKeyDown (keys : Keypad) : Bool := allKeys.any (keyDown keys)

/-- The least pressed key: the default of `KEY_PICK` (R5, R82). -/
def lowestKey (keys : Keypad) : Key := (allKeys.find? (keyDown keys)).getD 0

/-- `KEY_PICK(pressed)` (R82, D19): the parameter's entry for this set of keys if it names one of them, else the least. -/
def pickKey (table : List (Keypad × Key)) (keys : Keypad) : Key :=
  match table.lookup keys with
  | some k => if keyDown keys k then k else lowestKey keys
  | none => lowestKey keys

/-- A key index as the byte a register receives (R82). -/
def keyByte (k : Key) : Byte := BitVec.ofNat 8 k.val

end Sys2Proof.Machine
end

