-- ==== Sys2Proof/Machine/Flags.lean ====
section
/-! DEFINITION. Results and flags of the six instructions that write `VF` as a flag (spec 10_state.md R12,
42_register_ops.md R126–R132, 44_display.md R160, R162). A flag is exactly 0x00 or 0x01, the whole register. -/

namespace Sys2Proof.Machine

open Sys2Proof

/-- A flag value (R132 g). -/
def flagByte (b : Bool) : Byte := if b then 0x01 else 0x00

/-- `(a + b) mod 256` (R126). -/
def addResult (a b : Byte) : Byte := BitVec.ofNat 8 (a.toNat + b.toNat)
/-- Carry out: `a + b ≥ 256` on the unbounded sum (R126). -/
def carryOut (a b : Byte) : Bool := decide (a.toNat + b.toNat ≥ 256)

/-- `(a - b) mod 256`: `a - b + 256` when `a < b` (R127, R132 c). -/
def subResult (a b : Byte) : Byte := BitVec.ofNat 8 (a.toNat + 256 - b.toNat)
/-- No borrow: minuend `≥` subtrahend (R127). -/
def noBorrow (a b : Byte) : Bool := decide (a.toNat ≥ b.toNat)

/-- `s >> 1`, logical (R129). -/
def shrResult (s : Byte) : Byte := BitVec.ofNat 8 (s.toNat / 2)
/-- The bit a right shift drops: `s[0]` (R129). -/
def shrOut (s : Byte) : Bool := s.getLsbD 0

/-- `(s << 1) mod 256` (R130). -/
def shlResult (s : Byte) : Byte := BitVec.ofNat 8 (s.toNat * 2)
/-- The bit a left shift drops: `s[7]` (R130). -/
def shlOut (s : Byte) : Bool := s.getLsbD 7

/-! ### Pixels and the collision flag -/

/-- `FB[r][c]` (R19). -/
def Framebuffer.pixel (fb : Framebuffer) (r : Fin 32) (c : Fin 64) : Bool := (fb.get r).get c

/-- `FB[r][c] <- b`. -/
def Framebuffer.setPixel (fb : Framebuffer) (r : Fin 32) (c : Fin 64) (b : Bool) : Framebuffer :=
  fb.set r.val ((fb.get r).set c.val b c.isLt) r.isLt

/-- A display and the collision seen so far. -/
abbrev Drawn := Framebuffer × Bool

/-- One sprite bit (R160): a 1 toggles its pixel and hits if the pixel was on; a 0 does nothing. -/
def drawBit (r : Fin 32) (x0 b : Byte) (d : Drawn) (col : Nat) : Drawn :=
  if spriteBit b col then
    (d.1.setPixel r (pixelCol x0 col) (!d.1.pixel r (pixelCol x0 col)), d.2 || d.1.pixel r (pixelCol x0 col))
  else d

/-- One sprite row: the eight bits from left to right (R160, R162). -/
def drawRow (r : Fin 32) (x0 b : Byte) (d : Drawn) : Drawn :=
  [0, 1, 2, 3, 4, 5, 6, 7].foldl (drawBit r x0 b) d

end Sys2Proof.Machine
end

