-- ==== Sys2Proof/Machine/ControlFlow.lean ====
section
/-! DEFINITION. Control flow (spec 41_control_flow.md R100–R111). Each meaning runs with `PC` already advanced past the
instruction (R86): `PC = P + 2`. -/

namespace Sys2Proof.Machine

open Sys2Proof

/-- `CLS` (R100): every pixel off. -/
def execCls (s : State) : Result := .next { s with FB := Framebuffer.clear }

/-- `RET` (R101): pop into `PC`, or `StackUnderflow`. -/
def execRet (s : State) : Result :=
  match s.pop with
  | .ok (target, s') => .next (s'.jump target)
  | .error f => raise f s

/-- `JP nnn` (R102). -/
def execJp (nnn : Imm12) (s : State) : Result := .next (s.jump (zext16 nnn))

/-- `CALL nnn` (R103): push the advanced `PC`, or `StackOverflow`; then jump. -/
def execCall (nnn : Imm12) (s : State) : Result :=
  match s.push s.PC with
  | .ok s' => .next (s'.jump (zext16 nnn))
  | .error f => raise f s

/-- `SE Vx, nn` (R104). -/
def execSeImm (x : Reg) (nn : Byte) (s : State) : Result := .next (s.skipIf (s.getV x == nn))

/-- `SNE Vx, nn` (R105). -/
def execSneImm (x : Reg) (nn : Byte) (s : State) : Result := .next (s.skipIf (s.getV x != nn))

/-- `SE Vx, Vy` (R106). -/
def execSeReg (x y : Reg) (s : State) : Result := .next (s.skipIf (s.getV x == s.getV y))

/-- `SNE Vx, Vy` (R107). -/
def execSneReg (x y : Reg) (s : State) : Result := .next (s.skipIf (s.getV x != s.getV y))

/-- `SKP Vx` (R108): the key is the low nibble of `V[x]` (D18). -/
def execSkp (x : Reg) (s : State) : Result := .next (s.skipIf (keyDown s.KEY (lowNibble (s.getV x))))

/-- `SKNP Vx` (R109). -/
def execSknp (x : Reg) (s : State) : Result := .next (s.skipIf (!keyDown s.KEY (lowNibble (s.getV x))))

/-- `JP V0, nnn` (R110): `nnn + V[0]`, not reduced to 12 bits. The decoder gives this instruction only when
`EXT_JP_V0 = true`. -/
def execJpV0 (nnn : Imm12) (s : State) : Result := .next (s.jump (zext16 nnn + zextByte (s.getV 0)))

end Sys2Proof.Machine
end

