-- ==== Sys2Proof/Machine/Display.lean ====
section
/-! DEFINITION. The sprite draw (spec 44_display.md R160–R163). -/

namespace Sys2Proof.Machine

open Sys2Proof

/-- The rows `row, row + 1, …` still to draw, `left` of them, at column `x0` and row `y0`: each reads its byte at `I + row`
and draws it; after the last, `V[15] <- hit`. At the first byte out of range the fault is raised, the rows before it stay
drawn and `VF` is not written (R160, R47). -/
def drawRows (x0 y0 : Byte) : (left row : Nat) → (hit : Bool) → State → Result
  | 0, _, hit, s => .next (s.setV VF (flagByte hit))
  | left + 1, row, hit, s =>
    match s.memRead (s.ea row) with
    | .ok b =>
      let d := drawRow (pixelRow y0 row) x0 b (s.FB, hit)
      drawRows x0 y0 left (row + 1) d.2 { s with FB := d.1 }
    | .error f => raise f s

/-- `DRW Vx, Vy, n` (R160): the coordinates are read before anything is written. Where R161, derived from R160, says of a
second equal draw what R160's steps do not give (its flag over pixels that were all on), R160 is followed (DEDUCED, log
entry 10). -/
def execDrw (x y : Reg) (n : Nibble) (s : State) : Result := drawRows (s.getV x) (s.getV y) n.toNat 0 false s

end Sys2Proof.Machine
end

