-- ==== Sys2Proof/Machine/IndexMemory.lean ====
section
/-! DEFINITION. Index-register and memory instructions (spec 43_index_memory.md R140–R146). None changes `I` by using it
as an address (R146). -/

namespace Sys2Proof.Machine

open Sys2Proof

/-- `LD I, nnn` (R140). -/
def execLdI (nnn : Imm12) (s : State) : Result := .next { s with I := zext16 nnn }

/-- `ADD I, Vx` (R141): modulo 65536, no flag, no fault. -/
def execAddI (x : Reg) (s : State) : Result := .next { s with I := s.I + zextByte (s.getV x) }

/-- `LD F, Vx` (R142): the glyph of the low nibble. -/
def execLdF (x : Reg) (s : State) : Result := .next { s with I := glyphAddress (lowNibble (s.getV x)) }

/-- `LD B, Vx` (R143): the decimal digits to `I`, `I + 1`, `I + 2`. -/
def execLdB (x : Reg) (s : State) : Result := storeBytes (s.ea 0) (bcdDigits (s.getV x)) s

/-- `LD [I], Vx` (R144): `V[0]..V[x]` to `I`, `I + 1`, … -/
def execStoreRegs (x : Reg) (s : State) : Result := storeBytes (s.ea 0) ((regsUpTo x).map s.getV) s

/-- `LD Vx, [I]` (R145): `V[0]..V[x]` from `I`, `I + 1`, … -/
def execLoadRegs (x : Reg) (s : State) : Result := loadFrom (s.ea 0) (regsUpTo x) s

end Sys2Proof.Machine
end

