-- ==== Sys2Proof/Machine/RegisterOps.lean ====
section
/-! DEFINITION. Register and ALU instructions (spec 42_register_ops.md R120–R132). -/

namespace Sys2Proof.Machine

open Sys2Proof

/-- `LD Vx, nn` (R120). -/
def execLdImm (x : Reg) (nn : Byte) (s : State) : Result := .next (s.setV x nn)

/-- `ADD Vx, nn` (R121): modulo 256, no flag. -/
def execAddImm (x : Reg) (nn : Byte) (s : State) : Result := .next (s.setV x (addResult (s.getV x) nn))

/-- `LD Vx, Vy` (R122). -/
def execLdReg (x y : Reg) (s : State) : Result := .next (s.setV x (s.getV y))

/-- `OR Vx, Vy` (R123); `VF` is not a flag here (D13). -/
def execOrReg (x y : Reg) (s : State) : Result := .next (s.setV x (s.getV x ||| s.getV y))

/-- `AND Vx, Vy` (R124); `VF` is not a flag here (D13). -/
def execAndReg (x y : Reg) (s : State) : Result := .next (s.setV x (s.getV x &&& s.getV y))

/-- `XOR Vx, Vy` (R125); `VF` is not a flag here (D13). -/
def execXorReg (x y : Reg) (s : State) : Result := .next (s.setV x (s.getV x ^^^ s.getV y))

/-- `ADD Vx, Vy` (R126): the sum, then the carry. -/
def execAddReg (x y : Reg) (s : State) : Result :=
  .next (s.setResultThenFlag x (addResult (s.getV x) (s.getV y)) (flagByte (carryOut (s.getV x) (s.getV y))))

/-- `SUB Vx, Vy` (R127): `V[x] - V[y]`, then NOT borrow. -/
def execSub (x y : Reg) (s : State) : Result :=
  .next (s.setResultThenFlag x (subResult (s.getV x) (s.getV y)) (flagByte (noBorrow (s.getV x) (s.getV y))))

/-- `SUBN Vx, Vy` (R128): `V[y] - V[x]`, then NOT borrow. -/
def execSubn (x y : Reg) (s : State) : Result :=
  .next (s.setResultThenFlag x (subResult (s.getV y) (s.getV x)) (flagByte (noBorrow (s.getV y) (s.getV x))))

/-- `SHR Vx {, Vy}` (R129): the source shifted right once, then the bit shifted out. -/
def execShr (x y : Reg) (s : State) : Result :=
  .next (s.setResultThenFlag x (shrResult (s.shiftSource x y)) (flagByte (shrOut (s.shiftSource x y))))

/-- `SHL Vx {, Vy}` (R130): the source shifted left once, then the bit shifted out. -/
def execShl (x y : Reg) (s : State) : Result :=
  .next (s.setResultThenFlag x (shlResult (s.shiftSource x y)) (flagByte (shlOut (s.shiftSource x y))))

end Sys2Proof.Machine
end

