-- ==== Sys2Proof/Machine/TimersRandomKey.lean ====
section
/-! DEFINITION. Timer, random and key-wait instructions (spec 45_timers_random_key.md R170–R176), and the wait check of
the ticks after a key-wait (40_cycle.md R82). -/

namespace Sys2Proof.Machine

open Sys2Proof

/-- `LD Vx, DT` (R170). -/
def execLdFromDt (x : Reg) (s : State) : Result := .next (s.setV x s.DT)

/-- `LD DT, Vx` (R171). -/
def execLdDt (x : Reg) (s : State) : Result := .next { s with DT := s.getV x }

/-- `LD ST, Vx` (R172). -/
def execLdSt (x : Reg) (s : State) : Result := .next { s with ST := s.getV x }

/-- `RND Vx, nn` (R174): one random byte is consumed; `V[x] <- rnd & nn`. -/
def execRnd (x : Reg) (nn : Byte) (s : State) : Result := .next (s.drawRnd.2.setV x (s.drawRnd.1 &&& nn))

/-- `LD Vx, K` (R175): enter the sub-state "awaiting key" and go back to the address of this instruction. -/
def execLdKey (x : Reg) (s : State) : Result := .next { s with WAIT := some x, PC := s.PC - 2 }

/-- The wait check (R82) of a tick while `WAIT = Some(x)`: with a key down, `V[x]` receives the key `KEY_PICK` chooses, the
wait ends and `PC` advances; with none down nothing changes. -/
def State.waitCheck (s : State) (x : Reg) : State :=
  if anyKeyDown s.KEY then
    { s.setV x (keyByte (pickKey s.cfg.keyPick s.KEY)) with WAIT := none, PC := s.PC + 2 }
  else s

end Sys2Proof.Machine
end

