-- ==== Sys2Proof/Machine/Tick.lean ====
section
/-! DEFINITION. The CPU's operation `tick()` (spec 40_cycle.md R80–R90) and what it reports (60_exceptions.md R226, R227). -/

namespace Sys2Proof.Machine

open Sys2Proof

/-- Advance, decode and execute a fetched word (R84, R85, R86). An invalid word faults with `PC` already advanced. -/
def State.runWord (s : State) (w : Word) : Result :=
  match decodeWord s.cfg.extJpV0 w with
  | .ok i => exec i s.advance
  | .error _ => raise (.invalidOpcode w) s.advance

/-- `tick()` (R89): the halted check, the wait check, then fetch, advance, decode, execute; a fetch fault leaves `PC`. -/
def tick (s : State) : Result :=
  if s.HALTED then .next s
  else
    match s.WAIT with
    | some x => .next (s.waitCheck x)
    | none =>
      match s.fetch with
      | .ok w => s.runWord w
      | .error f => raise f s

/-- What `tick()` returns to the driver, read from the state it leaves (R80, R81, R87, R226): `none` for `Ok`, the fault for
`Err`. A halted machine re-reports its fault. -/
def State.tickReport (s : State) : Option Fault := if s.HALTED then s.FAULT else none

/-- The numeric code of a fault (R227); 0 stands for no fault. -/
def Fault.code : Fault → BitVec 3
  | .invalidOpcode _ => 1
  | .stackOverflow => 2
  | .stackUnderflow => 3
  | .memoryOutOfRange _ => 4

/-- The 17-bit payload of a fault (R227): the word zero-extended, or the address. The two stack faults have no payload, and
R227 gives the field no value for them: 0 is the model's (DESIGN CHOICE, log entry 18). -/
def Fault.info : Fault → BitVec 17
  | .invalidOpcode w => w.setWidth 17
  | .stackOverflow => 0
  | .stackUnderflow => 0
  | .memoryOutOfRange a => BitVec.ofNat 17 a

end Sys2Proof.Machine
end

