-- ==== Sys2Proof/Machine/Driver.lean ====
section
/-! DEFINITION. The timer and host agents (spec 60_exceptions.md R212–R221, 70_reset_and_hazards.md R240–R242): the calls
that change the machine, and the pure reads. -/

namespace Sys2Proof.Machine

open Sys2Proof

/-- A timer's decrement, saturating at 0 (R214). -/
def countDown (t : Byte) : Byte := if t = 0 then 0 else t - 1

/-- `tick_timers()` (R214), the same in every condition of the CPU (R215). -/
def State.tickTimers (s : State) : State := { s with DT := countDown s.DT, ST := countDown s.ST }

/-- `set_key(index, pressed)` (R217); an index above 15 is refused without effect (D26). -/
def State.setKey (s : State) (index : Nat) (pressed : Bool) : State :=
  if h : index < 16 then { s with KEY := s.KEY.set index pressed h } else s

/-- Why `load` fails (R200, R220). -/
inductive LoadError where
  /-- more than 3584 bytes; nothing changes and the machine does not halt; safe: the spec's own refusal -/
  | romTooLarge
  deriving DecidableEq, Repr

/-- `load(bytes)` (R220): the bytes from 0x200 on and a clear display, or `RomTooLarge`. Nothing else changes (D7). -/
def State.load (s : State) (bytes : List Byte) : Except LoadError State :=
  if bytes.length > Config.romMax then .error .romTooLarge
  else .ok { s.writeBytes Config.progBase bytes with FB := Framebuffer.clear }

/-- The state after `load(bytes)`, whether it succeeds or not: a failed load changes nothing (R220). -/
def State.afterLoad (s : State) (bytes : List Byte) : State :=
  match s.load bytes with
  | .ok s' => s'
  | .error _ => s

/-- One call of the driver (R24, R221), atomic. -/
def perform (c : Call) (s : State) : Result :=
  match c with
  | .tick => tick s
  | .tickTimers => .next s.tickTimers
  | .setKey index pressed => .next (s.setKey index pressed)
  | .load bytes => .next (s.afterLoad bytes)
  | .reset => .next s.hostReset

/-- The next call of the driver: the first of the schedule, and `tick()` when the schedule is empty (R246: any
interleaving; log entry 2). -/
def nextCall (s : State) : Result :=
  match s.schedule with
  | [] => tick s
  | c :: rest => perform c { s with schedule := rest }

/-! ### Pure reads (R216, R218, R219) -/

/-- `framebuffer()` (R218). -/
def State.framebuffer (s : State) : Framebuffer := s.FB

/-- `sound_active()` (R216): `ST ≠ 0`. -/
def State.soundActive (s : State) : Bool := s.ST != 0

/-- `halted()` (R219). -/
def State.halted (s : State) : Bool := s.HALTED

end Sys2Proof.Machine
end

