-- ==== Sys2Proof/Machine/Step.lean ====
section
/-! DEFINITION. One step of the machine: one whole operation of one agent (spec 10_state.md R24), and the placing of a word
where the next step fetches. -/

namespace Sys2Proof.Machine

open Sys2Proof

/-- One step: the driver's next call (R24, R89). -/
def step (s : State) : Host.Outcome State Fault Refusal := nextCall s

/-- Where the next fetch reads: `PC`, or 0x200 where `PC` is no legal fetch address (R14, R83). -/
def State.fetchBase (s : State) : Word := if s.PC.toNat ≤ 0xFFE then s.PC else 0x200

/-- `s` with the word of `w` placed so that the very next step fetches and runs it: no call is pending, the machine is
neither halted nor waiting, and the optional row `Bnnn` is enabled if that is the word (R110; log entry 6). Each of these
is changed only where it stands in the way of the fetch. -/
def State.withFetchWord (s : State) (nbits w : Nat) : State :=
  let word := tableWord nbits w
  let a := s.fetchBase
  { (s.writeByte a.toNat (highByte word)).writeByte (a.toNat + 1) (lowByte word) with
    PC := a, schedule := [], WAIT := none, HALTED := false, FAULT := none,
    cfg := { s.cfg with extJpV0 := s.cfg.extJpV0 || opField word == 0xB } }

end Sys2Proof.Machine
end

