-- ==== Sys2Proof/Machine/Signals.lean ====
section
/-! DEFINITION. The suggested signal-level binding (spec 60_exceptions.md R228, not normative; nothing else in the model
rests on it): the operations of R24 as one clock edge over ports. -/

namespace Sys2Proof.Machine

open Sys2Proof

/-- The input signals of R228. -/
structure Inputs where
  rst : Bool
  loadWe : Bool
  loadAddr : Imm12
  loadData : Byte
  step : Bool
  timerTick : Bool
  key : Keypad
  rnd : Byte
  deriving DecidableEq, Repr

/-- The output signals of R228; `fb` is the whole display. -/
structure Outputs where
  halted : Bool
  faultCode : BitVec 3
  faultInfo : BitVec 17
  soundActive : Bool
  fb : Framebuffer
  deriving DecidableEq, Repr

/-- The outputs are functions of the state (R216, R218, R219, R227). R227 gives the code 0 for no fault and the payload field
no value then: 0 is the model's (DESIGN CHOICE, log entry 18). -/
def State.outputs (s : State) : Outputs :=
  { halted := s.halted
    faultCode := match s.FAULT with
      | none => 0
      | some f => f.code
    faultInfo := match s.FAULT with
      | none => 0
      | some f => f.info
    soundActive := s.soundActive
    fb := s.framebuffer }

/-- One byte through the loader port: accepted from 0x200 up; the byte at 0x200 is the first of a ROM, so the display is
cleared there (DEDUCED, log entry 9). Of the loader's three duties in R228 the port does the 0x200 check and the clearing; the
`RomTooLarge` check is left to the loader outside, since a 12-bit address carries no length (DESIGN CHOICE, log entry 9). -/
def State.loadPort (s : State) (addr : Imm12) (data : Byte) : State :=
  if addr.toNat < 0x200 then s
  else if addr.toNat = 0x200 then { s.writeByte addr.toNat data with FB := Framebuffer.clear }
  else s.writeByte addr.toNat data

/-- `tick()` with the byte that a `RND` of this tick samples. -/
def tickSampling (rnd : Byte) (s : State) : Result :=
  match tick { s with rndIn := [rnd] } with
  | .next t => .next { t with rndIn := s.rndIn }
  | .fault f => .fault f
  | .refused r => .refused r

/-- One rising edge of `clk`: `rst` alone, or loader write, key sampling, timer tick and step in this order (R228). -/
def clockEdge (p : Inputs) (s : State) : Result :=
  if p.rst then .next s.hostReset
  else
    let s1 := if p.loadWe then s.loadPort p.loadAddr p.loadData else s
    let s2 := { s1 with KEY := p.key }
    let s3 := if p.timerTick then s2.tickTimers else s2
    if p.step then tickSampling p.rnd s3 else .next s3

end Sys2Proof.Machine
end

