-- ==== Sys2Proof/Safety.lean ====
section
/-! DEFINITION. The terms in which claims speak of a run: a state whose next step fetches, a finished program, and the
invariant of the machine (spec 10_state.md R15, R16, R18, R22; 70_reset_and_hazards.md R244). -/

namespace Sys2Proof.Machine

open Sys2Proof

/-- The next step is a `tick()` that fetches: no call is pending, the machine is neither halted nor waiting (R80). -/
def State.ready (s : State) : Prop := s.schedule = [] ∧ s.HALTED = false ∧ s.WAIT = none

/-- "The program has finished" (R244 c): running, not waiting, and the word at `PC` is `JP PC`. -/
def State.finished (s : State) : Prop :=
  s.HALTED = false ∧ s.WAIT = none ∧
    ∃ nnn : Imm12, s.fetch = .ok (0x1#4 ++ nnn) ∧ s.PC.toNat = nnn.toNat

/-- A payload a fault of this machine can carry (R200, R42): a word that does not decode, or an address above 0xFFF of at
most 17 bits, no more than 0xFFFF + 15. -/
def Fault.payloadOk (ext : Bool) : Fault → Prop
  | .invalidOpcode w => decodeWord ext w = .error (.invalidOpcode w)
  | .stackOverflow => True
  | .stackUnderflow => True
  | .memoryOutOfRange a => 0xFFF < a ∧ a ≤ 0x1000E

/-- What every reachable state satisfies and every step keeps. -/
structure State.Inv (s : State) : Prop where
  /-- memory is in its canonical form and holds the 4096 addresses only (R18, R40) -/
  memory : Memory.wf s.cfg.font s.MEM
  /-- `HALTED = 1` if and only if `FAULT ≠ None` (R22) -/
  halted_iff_fault : s.HALTED = true ↔ s.FAULT.isSome = true
  /-- the recorded fault is one the machine raises (R200) -/
  fault_payload : ∀ f, s.FAULT = some f → f.payloadOk s.cfg.extJpV0
  /-- the range of `PC` (R15) -/
  pc_range : s.PC.toNat ≤ (if s.cfg.extJpV0 then 0x10FE else 0x1002)
  /-- every live stack entry is one `CALL` can push (R16) -/
  stack_range : ∀ k : Fin 16, k.val < s.SP.val → 2 ≤ (s.STACK.get k).toNat ∧ (s.STACK.get k).toNat ≤ 0x1000
  /-- a waiting machine is not halted, and waits at a legal fetch address (R21, R81) -/
  waiting : s.WAIT ≠ none → s.HALTED = false ∧ s.PC.toNat ≤ 0xFFE

/-- The instructions that write `VF` as a flag (R12). -/
def writesFlag : Instr → Bool
  | .addReg _ _ | .sub _ _ | .subn _ _ | .shr _ _ | .shl _ _ | .drw _ _ _ => true
  | .cls | .ret | .jp _ | .call _ | .seImm _ _ | .sneImm _ _ | .seReg _ _ | .sneReg _ _ | .skp _ | .sknp _ => false
  | .ldImm _ _ | .addImm _ _ | .ldReg _ _ | .orReg _ _ | .andReg _ _ | .xorReg _ _ => false
  | .ldI _ | .addI _ | .ldF _ | .ldB _ | .storeRegs _ | .loadRegs _ => false
  | .ldFromDt _ | .ldDt _ | .ldSt _ | .rnd _ _ | .ldKey _ | .jpV0 _ => false

/-- `V[r]` is a register the instruction names as its destination (R11; R145 for the block load). `LD Vx, K` writes `V[x]`
only in the tick that ends the wait (R82). -/
def namesDest (i : Instr) (r : Reg) : Bool :=
  match i with
  | .ldImm x _ | .addImm x _ | .ldReg x _ | .orReg x _ | .andReg x _ | .xorReg x _ => r == x
  | .addReg x _ | .sub x _ | .subn x _ | .shr x _ | .shl x _ => r == x
  | .ldFromDt x | .rnd x _ => r == x
  | .loadRegs x => decide (r ≤ x)
  | .cls | .ret | .jp _ | .call _ | .seImm _ _ | .sneImm _ _ | .seReg _ _ | .sneReg _ _ | .skp _ | .sknp _ => false
  | .ldI _ | .addI _ | .ldF _ | .ldB _ | .storeRegs _ | .drw _ _ _ => false
  | .ldDt _ | .ldSt _ | .ldKey _ | .jpV0 _ => false

/-- Values pushed one after the other, the first first (R16). -/
def State.pushAll (s : State) : List Word → Except Fault State
  | [] => .ok s
  | v :: vs =>
    match s.push v with
    | .ok s' => s'.pushAll vs
    | .error f => .error f

/-- The values of `n` pops, the first popped first, and the state after them (R16). -/
def State.popMany (s : State) : Nat → Except Fault (List Word × State)
  | 0 => .ok ([], s)
  | n + 1 =>
    match s.pop with
    | .error f => .error f
    | .ok (v, s') =>
      match s'.popMany n with
      | .ok (vs, t) => .ok (v :: vs, t)
      | .error f => .error f

/-- Sprite bit `col` of row `row` of the `n`-row sprite at `I` is 1 and falls on pixel `(r, c)` when drawn at `(x0, y0)`
(R160): a targeted pixel. -/
def State.targets (s : State) (x0 y0 : Byte) (n : Nat) (r : Fin 32) (c : Fin 64) : Prop :=
  ∃ row < n, ∃ col < 8, (s.readByte (s.I.toNat + row)).getLsbD (7 - col) = true ∧
    r.val = (y0.toNat + row) % 32 ∧ c.val = (x0.toNat + col) % 64

end Sys2Proof.Machine
end

