-- ==== Sys2Proof/Certificates/Slice0/Obligations.lean ====
section
/-! DEFINITION. The statements for the provers. `exec i s` is the instruction's own effect, so `s.PC` is already the address
after the instruction (40_cycle.md R86). A frame is written `t = { s with F := t.F, … }`: every other field, memory among
them, is unchanged. -/

open Sys2Proof Sys2Proof.Machine

/-! ### Encoding -/

/-- Words written out from the spec's encodings (95_test_vectors.md S7, S8 and 30_encoding.md R65) decode to what they
stand for, one of every family. -/
def Obligations.SampleWordsDecode : Prop :=
  decodeWord false 0x6005 = .ok (.ldImm 0 0x05) ∧
  decodeWord false 0x610A = .ok (.ldImm 1 0x0A) ∧
  decodeWord false 0x8014 = .ok (.addReg 0 1) ∧
  decodeWord false 0x1200 = .ok (.jp 0x200) ∧
  decodeWord false 0x00EE = .ok .ret ∧
  decodeWord false 0xE49E = .ok (.skp 4) ∧
  decodeWord false 0xF265 = .ok (.loadRegs 2) ∧
  decodeWord false 0xD012 = .ok (.drw 0 1 2) ∧
  decodeWord false 0xF50A = .ok (.ldKey 5) ∧
  decodeWord false 0xB300 = .error (.invalidOpcode 0xB300) ∧
  decodeWord true 0xB300 = .ok (.jpV0 0x300)

/-- Decoding the bytes of any well-formed instruction, whatever follows them, gives the instruction back with every operand
(30_encoding.md R71). -/
def Obligations.DecodeOfEncodeIsTheInstruction : Prop :=
  ∀ (ext : Bool) (i : Instr) (rest : List Byte), i.wellFormed ext = true →
    decode ext (encodeBytes i ++ rest) = .ok (i, rest)

/-- Encoding what a valid word decodes to gives the word back, and the decoder gives well-formed instructions only
(30_encoding.md R71, R69: no pattern ignores a bit). -/
def Obligations.EncodeOfDecodeIsTheWord : Prop :=
  ∀ (ext : Bool) (w : Word) (i : Instr), decodeWord ext w = .ok i → encode i = w ∧ i.wellFormed ext = true

/-- The decoder follows the map of 30_encoding.md R65: a word decodes to an instruction of a row exactly when it carries
the row's fixed bits under the row's mask. -/
def Obligations.DecodeFollowsTheMap : Prop :=
  ∀ (ext : Bool) (w : Word) (i : Instr), i.wellFormed ext = true →
    (w &&& i.rowMask = i.rowMatch ↔
      ∃ j, decodeWord ext w = .ok j ∧ j.rowMatch = i.rowMatch ∧ j.rowMask = i.rowMask)

/-- The words that decode to nothing are exactly those of the table of 30_encoding.md R67, and the word is the payload. -/
def Obligations.InvalidWordsAreTheTablesWords : Prop :=
  ∀ (ext : Bool) (w : Word),
    (invalidWord ext w = true → decodeWord ext w = .error (.invalidOpcode w)) ∧
    (invalidWord ext w = false → ∃ i, decodeWord ext w = .ok i)

/-! ### The tick -/

/-- The step of a running machine whose bytes at `PC` decode to `i` is `exec i`, with `PC` already advanced by 2
(40_cycle.md R83, R84, R86). -/
def Obligations.StepRunsTheDecodedInstruction : Prop :=
  ∀ (s : State) (i : Instr), s.ready → s.PC.toNat ≤ 0xFFE →
    decodeWord s.cfg.extJpV0 (s.readByte s.PC.toNat ++ s.readByte (s.PC.toNat + 1)) = .ok i →
    step s = exec i { s with PC := s.PC + 2 }

/-- A word that decodes to nothing halts the machine with `InvalidOpcode(w)` and `PC = P + 2`; nothing else changes
(60_exceptions.md R201; the value of `PC` is the spec's decision D8). -/
def Obligations.InvalidWordHaltsTheMachine : Prop :=
  ∀ (s : State) (w : Word), s.ready → s.PC.toNat ≤ 0xFFE →
    w = s.readByte s.PC.toNat ++ s.readByte (s.PC.toNat + 1) → invalidWord s.cfg.extJpV0 w = true →
    step s = .next { s with PC := s.PC + 2, HALTED := true, FAULT := some (.invalidOpcode w) }

/-- A fetch above 0xFFE halts the machine with the address of the byte that could not be read, and `PC` is not advanced
(40_cycle.md R83; the value of `PC` is the spec's decision D8). -/
def Obligations.FetchOutOfRangeHaltsTheMachine : Prop :=
  ∀ s : State, s.ready →
    (s.PC.toNat = 0xFFF → step s = .next { s with HALTED := true, FAULT := some (.memoryOutOfRange 0x1000) }) ∧
    (0xFFF < s.PC.toNat →
      step s = .next { s with HALTED := true, FAULT := some (.memoryOutOfRange s.PC.toNat) })

/-- A halted machine's tick changes nothing and reports its fault again; the timers still count down, `set_key` still writes
its flag, `load` still copies the ROM and clears the display, and none of them ends the halt; only `reset()` does
(60_exceptions.md R208, R209; R215 is the spec's decision D20, `load`'s reach D7, an index above 15 D26, log entry 11). -/
def Obligations.HaltedMachineOnlyReports : Prop :=
  ∀ s : State, s.HALTED = true →
    tick s = .next s ∧ s.tickReport = s.FAULT ∧
    (∃ t, perform .tickTimers s = .next t ∧ t = { s with DT := t.DT, ST := t.ST } ∧
      t.DT.toNat = s.DT.toNat - 1 ∧ t.ST.toNat = s.ST.toNat - 1) ∧
    (∀ (k : Key) (p : Bool), ∃ t, perform (.setKey k.val p) s = .next t ∧ t.KEY.get k = p ∧
      (∀ j, j ≠ k → t.KEY.get j = s.KEY.get j) ∧ t = { s with KEY := t.KEY }) ∧
    (∀ index p, 16 ≤ index → perform (.setKey index p) s = .next s) ∧
    (∀ bytes : List Byte, bytes.length ≤ 3584 → ∃ t, perform (.load bytes) s = .next t ∧
      (∀ (i : Nat) (h : i < bytes.length), t.readByte (0x200 + i) = bytes[i]) ∧
      (∀ a, (a < 0x200 ∨ 0x200 + bytes.length ≤ a) → t.readByte a = s.readByte a) ∧
      (∀ r c, t.FB.pixel r c = false) ∧ t = { s with MEM := t.MEM, FB := t.FB }) ∧
    (∀ bytes : List Byte, 3584 < bytes.length → perform (.load bytes) s = .next s) ∧
    (∃ t, perform .reset s = .next t ∧ t.HALTED = false ∧ t.FAULT = none)

/-- Every step answers a next state, and a tick reports `Ok` with the machine running or `Err(f)` with the machine halted by
`f`: there is no third outcome (60_exceptions.md R226). The premise is part of the invariant, log entry 5. -/
def Obligations.EveryStepAnswersANextState : Prop :=
  (∀ s : State, ∃ t, step s = .next t) ∧
  (∀ s : State, (s.HALTED = true → s.FAULT ≠ none) → ∃ t, tick s = .next t ∧
    ((t.HALTED = false ∧ t.tickReport = none) ∨
      (t.HALTED = true ∧ ∃ f, t.FAULT = some f ∧ t.tickReport = some f)))

/-- A step is one whole call: the schedule's first, or `tick()` when none is pending (10_state.md R24; the schedule is the
model's own, log entry 2). -/
def Obligations.StepPerformsTheScheduledCall : Prop :=
  ∀ (s : State) (c : Call) (rest : List Call),
    (s.schedule = c :: rest → step s = perform c { s with schedule := rest }) ∧
    (s.schedule = [] → step s = tick s)

/-- A tick changes no key and counts no timer down: `KEY` stays, `DT` and `ST` stay or take a register's value
(40_cycle.md R88). -/
def Obligations.TickLeavesKeysAndCountsNoTimer : Prop :=
  ∀ s t : State, tick s = .next t →
    t.KEY = s.KEY ∧ (t.DT = s.DT ∨ ∃ r, t.DT = s.getV r) ∧ (t.ST = s.ST ∨ ∃ r, t.ST = s.getV r)

/-- The word placed by `withFetchWord` is the one the next step runs, in every state (the model's own loader of one word,
log entry 6; 20_memory.md R44, 40_cycle.md R83). -/
def Obligations.PlacedWordIsRunNext : Prop :=
  ∀ (s : State) (w : Word) (i : Instr), decodeWord true w = .ok i →
    ∃ t : State, step (s.withFetchWord 16 w.toNat) = exec i t ∧
      t = { s.withFetchWord 16 w.toNat with PC := s.fetchBase + 2 }

/-! ### Control flow -/

/-- `CLS` turns every pixel off and changes nothing else (41_control_flow.md R100; the word is the spec's general
knowledge G1). -/
def Obligations.ClsClearsTheDisplay : Prop :=
  encode .cls = 0x00E0 ∧
  ∀ s : State, ∃ t, exec .cls s = .next t ∧ (∀ r c, t.FB.pixel r c = false) ∧ t = { s with FB := t.FB }

/-- `RET` takes the newest stack entry into `PC`, and with an empty stack raises `StackUnderflow` (41_control_flow.md R101,
60_exceptions.md R203; the word is the spec's general knowledge G1). -/
def Obligations.RetPopsIntoPc : Prop :=
  encode .ret = 0x00EE ∧ ∀ s : State,
    (s.SP.val = 0 → exec .ret s = .next { s with HALTED := true, FAULT := some .stackUnderflow }) ∧
    (∀ k : Fin 16, s.SP.val = k.val + 1 →
      ∃ t, exec .ret s = .next t ∧ t.PC = s.STACK.get k ∧ t.SP.val = k.val ∧ t = { s with PC := t.PC, SP := t.SP })

/-- `JP nnn` sets `PC` to exactly `nnn` (41_control_flow.md R102). -/
def Obligations.JpSetsPcToTheTarget : Prop :=
  ∀ (nnn : Imm12) (s : State), encode (.jp nnn) = 0x1#4 ++ nnn ∧
    ∃ t, exec (.jp nnn) s = .next t ∧ t.PC.toNat = nnn.toNat ∧ t = { s with PC := t.PC }

/-- `CALL nnn` pushes the advanced `PC` and jumps, and with a full stack raises `StackOverflow` and does neither
(41_control_flow.md R103, 60_exceptions.md R202; the word is the spec's general knowledge G1). -/
def Obligations.CallPushesTheReturnAddress : Prop :=
  ∀ (nnn : Imm12) (s : State), encode (.call nnn) = 0x2#4 ++ nnn ∧
    (s.SP.val = 16 → exec (.call nnn) s = .next { s with HALTED := true, FAULT := some .stackOverflow }) ∧
    (∀ k : Fin 16, s.SP.val = k.val →
      ∃ t, exec (.call nnn) s = .next t ∧ t.STACK.get k = s.PC ∧ (∀ j, j ≠ k → t.STACK.get j = s.STACK.get j) ∧
        t.SP.val = k.val + 1 ∧ t.PC.toNat = nnn.toNat ∧ t = { s with STACK := t.STACK, SP := t.SP, PC := t.PC })

/-- `SE Vx, nn` skips exactly when `V[x] = nn`, and `SNE Vx, nn` exactly when not; nothing but `PC` changes
(41_control_flow.md R104, R105; the words are the spec's general knowledge G1). -/
def Obligations.ImmediateSkipsCompareTheByte : Prop :=
  ∀ (x : Reg) (nn : Byte) (s : State),
    encode (.seImm x nn) = 0x3#4 ++ (regBits x ++ nn) ∧ encode (.sneImm x nn) = 0x4#4 ++ (regBits x ++ nn) ∧
    (s.getV x = nn →
      exec (.seImm x nn) s = .next { s with PC := s.PC + 2 } ∧ exec (.sneImm x nn) s = .next s) ∧
    (s.getV x ≠ nn →
      exec (.seImm x nn) s = .next s ∧ exec (.sneImm x nn) s = .next { s with PC := s.PC + 2 })

/-- `SE Vx, Vy` skips exactly when the registers are equal, and `SNE Vx, Vy` exactly when not (41_control_flow.md R106,
R107; the words are the spec's general knowledge G1). -/
def Obligations.RegisterSkipsCompareTheRegisters : Prop :=
  ∀ (x y : Reg) (s : State),
    encode (.seReg x y) = 0x5#4 ++ (regBits x ++ (regBits y ++ 0x0#4)) ∧
    encode (.sneReg x y) = 0x9#4 ++ (regBits x ++ (regBits y ++ 0x0#4)) ∧
    (s.getV x = s.getV y →
      exec (.seReg x y) s = .next { s with PC := s.PC + 2 } ∧ exec (.sneReg x y) s = .next s) ∧
    (s.getV x ≠ s.getV y →
      exec (.seReg x y) s = .next s ∧ exec (.sneReg x y) s = .next { s with PC := s.PC + 2 })

/-- `SKP Vx` skips exactly when the key numbered by the low nibble of `V[x]` is down, `SKNP Vx` exactly when it is up
(41_control_flow.md R108, R109; the low nibble is the spec's decision D18). -/
def Obligations.KeySkipsTestTheNamedKey : Prop :=
  ∀ (x : Reg) (k : Key) (s : State), k.val = (s.getV x).toNat % 16 →
    (s.KEY.get k = true → exec (.skp x) s = .next { s with PC := s.PC + 2 } ∧ exec (.sknp x) s = .next s) ∧
    (s.KEY.get k = false → exec (.skp x) s = .next s ∧ exec (.sknp x) s = .next { s with PC := s.PC + 2 })

/-- `JP V0, nnn` sets `PC` to the whole sum `nnn + V[0]` (41_control_flow.md R110, the optional instruction of the spec's
decision D16). It says so of `exec` whatever `EXT_JP_V0` is, although R110 is void where the parameter is false: that the
decoder alone tests the parameter is the model's choice (log entry 14). -/
def Obligations.JpV0AddsTheOffset : Prop :=
  ∀ (nnn : Imm12) (s : State), ∃ t, exec (.jpV0 nnn) s = .next t ∧ t.PC.toNat = nnn.toNat + (s.getV 0).toNat ∧
    t = { s with PC := t.PC }

/-- The call stack is a strict LIFO: values pushed are popped in reverse order and leave the fill level as it was, and a
push beyond sixteen entries overflows (10_state.md R16). -/
def Obligations.CallStackIsLifo : Prop :=
  ∀ (s : State) (vs : List Word),
    (s.SP.val + vs.length ≤ 16 → ∃ t u, s.pushAll vs = .ok t ∧ t.SP.val = s.SP.val + vs.length ∧
      t.popMany vs.length = .ok (vs.reverse, u) ∧ u.SP = s.SP) ∧
    (16 < s.SP.val + vs.length → s.pushAll vs = .error .stackOverflow)

/-! ### Register and ALU instructions -/

/-- `LD Vx, nn` loads the byte and changes nothing else (42_register_ops.md R120). -/
def Obligations.LoadImmediateLoadsTheByte : Prop :=
  ∀ (x : Reg) (nn : Byte) (s : State), encode (.ldImm x nn) = 0x6#4 ++ (regBits x ++ nn) ∧
    ∃ t, exec (.ldImm x nn) s = .next t ∧ t.getV x = nn ∧ (∀ r, r ≠ x → t.getV r = s.getV r) ∧ t = { s with V := t.V }

/-- `ADD Vx, nn` adds the byte modulo 256 and writes no flag, `LD Vx, Vy` copies the register (42_register_ops.md R121, R122;
the words are the spec's general knowledge G1). -/
def Obligations.CopiesAndImmediateAdd : Prop :=
  ∀ (x y : Reg) (nn : Byte) (s : State),
    encode (.addImm x nn) = 0x7#4 ++ (regBits x ++ nn) ∧
    encode (.ldReg x y) = 0x8#4 ++ (regBits x ++ (regBits y ++ 0x0#4)) ∧
    (∃ t, exec (.addImm x nn) s = .next t ∧ (t.getV x).toNat = ((s.getV x).toNat + nn.toNat) % 256 ∧
      (∀ r, r ≠ x → t.getV r = s.getV r) ∧ t = { s with V := t.V }) ∧
    (∃ t, exec (.ldReg x y) s = .next t ∧ t.getV x = s.getV y ∧
      (∀ r, r ≠ x → t.getV r = s.getV r) ∧ t = { s with V := t.V })

/-- `OR`, `AND` and `XOR` combine the registers bit by bit and write no flag (42_register_ops.md R123, R124, R125; the
unchanged `VF` is the spec's decision D13). -/
def Obligations.BitwiseOperations : Prop :=
  ∀ (x y : Reg) (s : State),
    (∃ t, exec (.orReg x y) s = .next t ∧
      (∀ i < 8, (t.getV x).getLsbD i = ((s.getV x).getLsbD i || (s.getV y).getLsbD i)) ∧
      (∀ r, r ≠ x → t.getV r = s.getV r) ∧ t = { s with V := t.V }) ∧
    (∃ t, exec (.andReg x y) s = .next t ∧
      (∀ i < 8, (t.getV x).getLsbD i = ((s.getV x).getLsbD i && (s.getV y).getLsbD i)) ∧
      (∀ r, r ≠ x → t.getV r = s.getV r) ∧ t = { s with V := t.V }) ∧
    (∃ t, exec (.xorReg x y) s = .next t ∧
      (∀ i < 8, (t.getV x).getLsbD i = ((s.getV x).getLsbD i ^^ (s.getV y).getLsbD i)) ∧
      (∀ r, r ≠ x → t.getV r = s.getV r) ∧ t = { s with V := t.V })

/-- `ADD Vx, Vy`: `VF` is 1 exactly when the 8-bit sum overflows, else 0; `V[x]`, unless it is `VF` itself, is the sum modulo
256 (42_register_ops.md R126). -/
def Obligations.AddStoresTheSumThenTheCarry : Prop :=
  ∀ (x y : Reg) (s : State), encode (.addReg x y) = 0x8#4 ++ (regBits x ++ (regBits y ++ 0x4#4)) ∧
    ∃ t, exec (.addReg x y) s = .next t ∧
    t.getV VF = (if 256 ≤ (s.getV x).toNat + (s.getV y).toNat then 1 else 0) ∧
    (x ≠ VF → (t.getV x).toNat = ((s.getV x).toNat + (s.getV y).toNat) % 256) ∧
    (∀ r, r ≠ x → r ≠ VF → t.getV r = s.getV r) ∧ t = { s with V := t.V }

/-- `SUB` and `SUBN`: `VF` is 1 exactly when minuend `≥` subtrahend, else 0; `V[x]`, unless it is `VF` itself, is the
difference modulo 256 (42_register_ops.md R127, R128; the words are the spec's general knowledge G1). -/
def Obligations.SubtractStoresTheDifferenceThenNoBorrow : Prop :=
  ∀ (x y : Reg) (s : State),
    encode (.sub x y) = 0x8#4 ++ (regBits x ++ (regBits y ++ 0x5#4)) ∧
    encode (.subn x y) = 0x8#4 ++ (regBits x ++ (regBits y ++ 0x7#4)) ∧
    (∃ t, exec (.sub x y) s = .next t ∧
      t.getV VF = (if (s.getV y).toNat ≤ (s.getV x).toNat then 1 else 0) ∧
      (x ≠ VF → (t.getV x).toNat = ((s.getV x).toNat + 256 - (s.getV y).toNat) % 256) ∧
      (∀ r, r ≠ x → r ≠ VF → t.getV r = s.getV r) ∧ t = { s with V := t.V }) ∧
    (∃ t, exec (.subn x y) s = .next t ∧
      t.getV VF = (if (s.getV x).toNat ≤ (s.getV y).toNat then 1 else 0) ∧
      (x ≠ VF → (t.getV x).toNat = ((s.getV y).toNat + 256 - (s.getV x).toNat) % 256) ∧
      (∀ r, r ≠ x → r ≠ VF → t.getV r = s.getV r) ∧ t = { s with V := t.V })

/-- `SHR` and `SHL` under both settings of `SHIFT_SRC`: the source is shifted once, logically, into `V[x]`, then `VF` is the
bit shifted out (42_register_ops.md R129, R130; the parameter is the spec's open point D14). -/
def Obligations.ShiftsUnderBothSettings : Prop :=
  ∀ (x y : Reg) (s : State) (src : Byte),
    ((s.cfg.shiftSrc = .vx ∧ src = s.getV x) ∨ (s.cfg.shiftSrc = .vy ∧ src = s.getV y)) →
    (∃ t, exec (.shr x y) s = .next t ∧ (t.getV VF).toNat = src.toNat % 2 ∧
      (x ≠ VF → (t.getV x).toNat = src.toNat / 2) ∧
      (∀ r, r ≠ x → r ≠ VF → t.getV r = s.getV r) ∧ t = { s with V := t.V }) ∧
    (∃ t, exec (.shl x y) s = .next t ∧ (t.getV VF).toNat = src.toNat / 128 ∧
      (x ≠ VF → (t.getV x).toNat = src.toNat * 2 % 256) ∧
      (∀ r, r ≠ x → r ≠ VF → t.getV r = s.getV r) ∧ t = { s with V := t.V })

/-- No instruction changes a register it does not name as its destination, except `VF` by the six that write it as a flag
(10_state.md R12). -/
def Obligations.OnlyNamedRegistersAndTheFlagChange : Prop :=
  ∀ (i : Instr) (s t : State) (r : Reg), exec i s = .next t → namesDest i r = false →
    (r = VF → writesFlag i = false) → t.getV r = s.getV r

/-- A flag written is exactly 0x00 or 0x01 (42_register_ops.md R132 g). -/
def Obligations.FlagsAreZeroOrOne : Prop :=
  ∀ (i : Instr) (s t : State), writesFlag i = true → exec i s = .next t → t.HALTED = false →
    t.getV VF = 0 ∨ t.getV VF = 1

/-! ### Index register and memory -/

/-- `LD I, nnn` loads `nnn`; `LD F, Vx` loads five times the low nibble of `V[x]` (43_index_memory.md R140, R142; the
words are the spec's general knowledge G1). -/
def Obligations.IndexLoads : Prop :=
  ∀ (nnn : Imm12) (x : Reg) (s : State),
    encode (.ldI nnn) = 0xA#4 ++ nnn ∧ encode (.ldF x) = 0xF#4 ++ (regBits x ++ 0x29#8) ∧
    (∃ t, exec (.ldI nnn) s = .next t ∧ t.I.toNat = nnn.toNat ∧ t = { s with I := t.I }) ∧
    (∃ t, exec (.ldF x) s = .next t ∧ t.I.toNat = 5 * ((s.getV x).toNat % 16) ∧ t = { s with I := t.I })

/-- `ADD I, Vx` adds modulo 65536 and writes no flag (43_index_memory.md R141; the spec's decision D11). -/
def Obligations.IndexAddWrapsAtSixteenBits : Prop :=
  ∀ (x : Reg) (s : State), ∃ t, exec (.addI x) s = .next t ∧
    t.I.toNat = (s.I.toNat + (s.getV x).toNat) % 65536 ∧ t = { s with I := t.I }

/-- Writing `MEM[a]` changes only `MEM[a]`, reading it back gives the value, and writing the same value again changes
nothing (20_memory.md R48). -/
def Obligations.MemoryReadsWhatWasWritten : Prop :=
  ∀ (s : State) (a : Nat) (v : Byte),
    s.writeByte a v = { s with MEM := (s.writeByte a v).MEM } ∧ (s.writeByte a v).readByte a = v ∧
    (∀ b, b ≠ a → (s.writeByte a v).readByte b = s.readByte b) ∧
    (s.writeByte a v).writeByte a v = s.writeByte a v

/-- `LD B, Vx` stores the hundreds, tens and ones of `V[x]` at `I`, `I + 1`, `I + 2`, and no other byte changes
(43_index_memory.md R143; the order of the digits is the spec's decision D23, the unchanged `I` D12). -/
def Obligations.BcdStoresThreeDigits : Prop :=
  ∀ (x : Reg) (s : State), s.I.toNat + 2 ≤ 0xFFF →
    ∃ t, exec (.ldB x) s = .next t ∧
      (t.readByte s.I.toNat).toNat = (s.getV x).toNat / 100 ∧
      (t.readByte (s.I.toNat + 1)).toNat = (s.getV x).toNat / 10 % 10 ∧
      (t.readByte (s.I.toNat + 2)).toNat = (s.getV x).toNat % 10 ∧
      (∀ a, (a < s.I.toNat ∨ s.I.toNat + 2 < a) → t.readByte a = s.readByte a) ∧ t = { s with MEM := t.MEM }

/-- `LD B, Vx` that leaves memory at its digit `k` stores the digits before it and raises `MemoryOutOfRange(I + k)`
(43_index_memory.md R143, 60_exceptions.md R204; the partial effect is the spec's decision D9). -/
def Obligations.BcdFaultsMidway : Prop :=
  ∀ (x : Reg) (s : State) (k : Nat), k ≤ 2 → (k = 0 ∨ s.I.toNat + k = 0x1000) → 0xFFF < s.I.toNat + k →
    ∃ t, exec (.ldB x) s = .next t ∧
      (0 < k → (t.readByte s.I.toNat).toNat = (s.getV x).toNat / 100) ∧
      (1 < k → (t.readByte (s.I.toNat + 1)).toNat = (s.getV x).toNat / 10 % 10) ∧
      (∀ a, (a < s.I.toNat ∨ s.I.toNat + k ≤ a) → t.readByte a = s.readByte a) ∧
      t = { s with MEM := t.MEM, HALTED := true, FAULT := some (.memoryOutOfRange (s.I.toNat + k)) }

/-- `LD [I], Vx` stores `V[0]..V[x]` at `I`, `I + 1`, …, and no other byte changes (43_index_memory.md R144; the unchanged
`I` is the spec's decision D12). -/
def Obligations.BlockStoreWritesTheRegisters : Prop :=
  ∀ (x : Reg) (s : State), s.I.toNat + x.val ≤ 0xFFF →
    ∃ t, exec (.storeRegs x) s = .next t ∧
      (∀ r : Reg, r ≤ x → t.readByte (s.I.toNat + r.val) = s.getV r) ∧
      (∀ a, (a < s.I.toNat ∨ s.I.toNat + x.val < a) → t.readByte a = s.readByte a) ∧ t = { s with MEM := t.MEM }

/-- `LD [I], Vx` that leaves memory at register `k` stores the registers before it and raises `MemoryOutOfRange(I + k)`
(43_index_memory.md R144, 60_exceptions.md R204; the partial effect is the spec's decision D9). -/
def Obligations.BlockStoreFaultsMidway : Prop :=
  ∀ (x k : Reg) (s : State), k ≤ x → (k.val = 0 ∨ s.I.toNat + k.val = 0x1000) → 0xFFF < s.I.toNat + k.val →
    ∃ t, exec (.storeRegs x) s = .next t ∧
      (∀ r : Reg, r < k → t.readByte (s.I.toNat + r.val) = s.getV r) ∧
      (∀ a, (a < s.I.toNat ∨ s.I.toNat + k.val ≤ a) → t.readByte a = s.readByte a) ∧
      t = { s with MEM := t.MEM, HALTED := true, FAULT := some (.memoryOutOfRange (s.I.toNat + k.val)) }

/-- `LD Vx, [I]` loads `V[0]..V[x]` from `I`, `I + 1`, …, and no other register changes (43_index_memory.md R145; the
unchanged `I` is the spec's decision D12). -/
def Obligations.BlockLoadReadsTheRegisters : Prop :=
  ∀ (x : Reg) (s : State), s.I.toNat + x.val ≤ 0xFFF →
    ∃ t, exec (.loadRegs x) s = .next t ∧
      (∀ r : Reg, r ≤ x → t.getV r = s.readByte (s.I.toNat + r.val)) ∧
      (∀ r : Reg, x < r → t.getV r = s.getV r) ∧ t = { s with V := t.V }

/-- `LD Vx, [I]` that leaves memory at register `k` loads the registers before it and raises `MemoryOutOfRange(I + k)`
(43_index_memory.md R145, 60_exceptions.md R204; the partial effect is the spec's decision D9). -/
def Obligations.BlockLoadFaultsMidway : Prop :=
  ∀ (x k : Reg) (s : State), k ≤ x → (k.val = 0 ∨ s.I.toNat + k.val = 0x1000) → 0xFFF < s.I.toNat + k.val →
    ∃ t, exec (.loadRegs x) s = .next t ∧
      (∀ r : Reg, r < k → t.getV r = s.readByte (s.I.toNat + r.val)) ∧
      (∀ r : Reg, k ≤ r → t.getV r = s.getV r) ∧
      t = { s with V := t.V, HALTED := true, FAULT := some (.memoryOutOfRange (s.I.toNat + k.val)) }

/-- Bytes stored where the next fetch reads are the word it fetches: no copy of the code is kept (20_memory.md R51). -/
def Obligations.FetchSeesEarlierStores : Prop :=
  ∀ (s : State) (hi lo : Byte), s.PC.toNat ≤ 0xFFE →
    ((s.writeByte s.PC.toNat hi).writeByte (s.PC.toNat + 1) lo).fetch = .ok (hi ++ lo)

/-! ### Display -/

/-- `DRW Vx, Vy, n` toggles exactly the targeted pixels and sets `VF` to 1 exactly when one of them was on, else 0
(44_display.md R160; the sprite's geometry is the spec's decision D22). -/
def Obligations.DrawTogglesTheTargetedPixels : Prop :=
  ∀ (x y : Reg) (n : Nibble) (s : State), (n.toNat = 0 ∨ s.I.toNat + n.toNat ≤ 0x1000) →
    ∃ t, exec (.drw x y n) s = .next t ∧
      (∀ r c, (s.targets (s.getV x) (s.getV y) n.toNat r c → t.FB.pixel r c = !s.FB.pixel r c) ∧
        (¬ s.targets (s.getV x) (s.getV y) n.toNat r c → t.FB.pixel r c = s.FB.pixel r c)) ∧
      ((∃ r c, s.targets (s.getV x) (s.getV y) n.toNat r c ∧ s.FB.pixel r c = true) → t.getV VF = 1) ∧
      ((¬ ∃ r c, s.targets (s.getV x) (s.getV y) n.toNat r c ∧ s.FB.pixel r c = true) → t.getV VF = 0) ∧
      (∀ r, r ≠ VF → t.getV r = s.getV r) ∧ t = { s with V := t.V, FB := t.FB }

/-- `DRW` whose row `k` lies outside memory draws the rows before it, does not write `VF`, and raises
`MemoryOutOfRange(I + k)` (44_display.md R160, 60_exceptions.md R204; the partial effect is the spec's decision D9). -/
def Obligations.DrawFaultsMidway : Prop :=
  ∀ (x y : Reg) (n : Nibble) (s : State) (k : Nat), k < n.toNat → (k = 0 ∨ s.I.toNat + k = 0x1000) →
    0xFFF < s.I.toNat + k →
    ∃ t, exec (.drw x y n) s = .next t ∧
      (∀ r c, (s.targets (s.getV x) (s.getV y) k r c → t.FB.pixel r c = !s.FB.pixel r c) ∧
        (¬ s.targets (s.getV x) (s.getV y) k r c → t.FB.pixel r c = s.FB.pixel r c)) ∧
      t = { s with FB := t.FB, HALTED := true, FAULT := some (.memoryOutOfRange (s.I.toNat + k)) }

/-- The toggle property (44_display.md R161): the same sprite drawn again at the same place, with no other change of the
display in between, gives the first display back, and the second collision flag is 1 exactly when the first draw turned a
pixel on; so it is 1 where the display was clear under the sprite and the sprite has a 1 bit, and 0 both times for a sprite
with none. R161's "provided the sprite has at least one 1 bit" alone does not give 1: over pixels that were all on, R160's
own steps give 0 (log entry 10). -/
def Obligations.DrawingTwiceRestoresTheDisplay : Prop :=
  ∀ (x y : Reg) (n : Nibble) (s : State), (n.toNat = 0 ∨ s.I.toNat + n.toNat ≤ 0x1000) →
    ∃ t, exec (.drw x y n) s = .next t ∧
      ∀ u : State, u.FB = t.FB → u.getV x = s.getV x → u.getV y = s.getV y → u.I = s.I →
        (∀ k < n.toNat, u.readByte (s.I.toNat + k) = s.readByte (s.I.toNat + k)) →
        ∃ w, exec (.drw x y n) u = .next w ∧ w.FB = s.FB ∧
          ((∃ r c, s.targets (s.getV x) (s.getV y) n.toNat r c ∧ s.FB.pixel r c = false) → w.getV VF = 1) ∧
          ((¬ ∃ r c, s.targets (s.getV x) (s.getV y) n.toNat r c ∧ s.FB.pixel r c = false) → w.getV VF = 0) ∧
          ((∃ k < n.toNat, s.readByte (s.I.toNat + k) ≠ 0) →
            (∀ r c, s.targets (s.getV x) (s.getV y) n.toNat r c → s.FB.pixel r c = false) → w.getV VF = 1) ∧
          ((∀ k < n.toNat, s.readByte (s.I.toNat + k) = 0) → t.getV VF = 0 ∧ w.getV VF = 0)

/-! ### Timers, random byte, key-wait -/

/-- `LD Vx, DT`, `LD DT, Vx` and `LD ST, Vx` copy between the register and the timer, and the sound output follows `ST` at
once (45_timers_random_key.md R170, R171, R172; the words are the spec's general knowledge G1). -/
def Obligations.TimerTransfers : Prop :=
  ∀ (x : Reg) (s : State),
    encode (.ldFromDt x) = 0xF#4 ++ (regBits x ++ 0x07#8) ∧ encode (.ldDt x) = 0xF#4 ++ (regBits x ++ 0x15#8) ∧
    encode (.ldSt x) = 0xF#4 ++ (regBits x ++ 0x18#8) ∧
    (∃ t, exec (.ldFromDt x) s = .next t ∧ t.getV x = s.DT ∧ (∀ r, r ≠ x → t.getV r = s.getV r) ∧ t = { s with V := t.V }) ∧
    (∃ t, exec (.ldDt x) s = .next t ∧ t.DT = s.getV x ∧ t = { s with DT := t.DT }) ∧
    (∃ t, exec (.ldSt x) s = .next t ∧ t.ST = s.getV x ∧ (t.soundActive = true ↔ s.getV x ≠ 0) ∧ t = { s with ST := t.ST })

/-- `RND Vx, nn` consumes one random byte, whatever it is, and masks it (45_timers_random_key.md R174; the source of the byte
is the model's own, log entry 3). -/
def Obligations.RndMasksOneRandomByte : Prop :=
  ∀ (x : Reg) (nn : Byte) (s : State), ∃ (t : State) (rnd : Byte), exec (.rnd x nn) s = .next t ∧
    t.getV x = rnd &&& nn ∧ (∀ r, r ≠ x → t.getV r = s.getV r) ∧
    (∀ b bs, s.rndIn = b :: bs → rnd = b ∧ t.rndIn = bs) ∧
    (s.rndIn = [] → rnd = Config.freeRnd s.draws ∧ t.rndIn = []) ∧ t.draws = s.draws + 1 ∧
    t = { s with V := t.V, rndIn := t.rndIn, draws := t.draws }

/-- Every other instruction neither consumes a random byte nor depends on one (45_timers_random_key.md R174, R176). -/
def Obligations.OnlyRndDependsOnTheRandomSource : Prop :=
  ∀ (i : Instr) (s t : State) (bytes : List Byte) (count : Nat), (∀ x nn, i ≠ .rnd x nn) → exec i s = .next t →
    exec i { s with rndIn := bytes, draws := count } = .next { t with rndIn := bytes, draws := count }

/-- No instruction reads the sound timer: with another `ST` an instruction does the same, and leaves that `ST` unless it is
`LD ST, Vx`, which writes it (10_state.md R17, R27; 45_timers_random_key.md R173 is the spec's decision D17). -/
def Obligations.NoInstructionReadsTheSoundTimer : Prop :=
  ∀ (i : Instr) (s t : State) (v : Byte), exec i s = .next t →
    ((∀ x, i ≠ .ldSt x) → exec i { s with ST := v } = .next { t with ST := v }) ∧
    (∀ x, i = .ldSt x → exec i { s with ST := v } = .next t)

/-- The tick that fetches `LD Vx, K` at `P` leaves `PC = P` and enters the wait, keys down or not (45_timers_random_key.md
R175; the spec's decision D19). -/
def Obligations.KeyWaitKeepsPc : Prop :=
  ∀ (x : Reg) (s : State),
    exec (.ldKey x) s = .next { s with WAIT := some x, PC := s.PC - 2 } ∧
    (s.ready → s.PC.toNat ≤ 0xFFE →
      decodeWord s.cfg.extJpV0 (s.readByte s.PC.toNat ++ s.readByte (s.PC.toNat + 1)) = .ok (.ldKey x) →
      step s = .next { s with WAIT := some x })

/-- A waiting machine's tick does nothing while no key is down; with a key down it stores the pressed key that the machine's
`KEY_PICK` chooses, the least one under the default, ends the wait and advances `PC` by 2, fetching nothing (40_cycle.md R82;
the spec's decision D19; `KEY_PICK` is the table of log entry 7). -/
def Obligations.WaitEndsWithAPressedKey : Prop :=
  ∀ (x : Reg) (s : State), s.schedule = [] → s.HALTED = false → s.WAIT = some x →
    ((∀ k, s.KEY.get k = false) → step s = .next s) ∧
    ((∃ k, s.KEY.get k = true) →
      ∃ (t : State) (k : Key), step s = .next t ∧ k = pickKey s.cfg.keyPick s.KEY ∧ s.KEY.get k = true ∧
        (t.getV x).toNat = k.val ∧
        (s.cfg.keyPick = [] → ∀ j, s.KEY.get j = true → k ≤ j) ∧ (∀ r, r ≠ x → t.getV r = s.getV r) ∧
        t = { s with V := t.V, WAIT := none, PC := s.PC + 2 })

/-- Every function from non-empty sets of pressed keys to one of their members is a setting of the parameter `KEY_PICK`, and
every setting is such a function (00_scope.md R5, the spec's open point D19). -/
def Obligations.KeyPickCoversEveryChoice : Prop :=
  (∀ (table : List (Keypad × Key)) (keys : Keypad), (∃ k, keys.get k = true) →
    keys.get (pickKey table keys) = true) ∧
  (∀ f : Keypad → Key, (∀ keys : Keypad, (∃ k, keys.get k = true) → keys.get (f keys) = true) →
    ∃ table, ∀ keys : Keypad, (∃ k, keys.get k = true) → pickKey table keys = f keys)

/-! ### The timer and host agents -/

/-- `tick_timers()` counts both timers down by 1, stopping at 0, and touches nothing else (60_exceptions.md R214). -/
def Obligations.TimerTickSaturates : Prop :=
  ∀ s : State, ∃ t, perform .tickTimers s = .next t ∧ t.DT.toNat = s.DT.toNat - 1 ∧ t.ST.toNat = s.ST.toNat - 1 ∧
    t = { s with DT := t.DT, ST := t.ST }

/-- `set_key` writes the one flag it names and nothing else; an index above 15 changes nothing (60_exceptions.md R217; the
refusal is the spec's decision D26). -/
def Obligations.SetKeyWritesOneFlag : Prop :=
  ∀ (s : State) (p : Bool),
    (∀ k : Key, ∃ t, perform (.setKey k.val p) s = .next t ∧ t.KEY.get k = p ∧
      (∀ j, j ≠ k → t.KEY.get j = s.KEY.get j) ∧ t = { s with KEY := t.KEY }) ∧
    (∀ index, 16 ≤ index → perform (.setKey index p) s = .next s)

/-- `load(bytes)` of at most 3584 bytes puts them at 0x200 and clears the display; a longer one fails and changes nothing
(60_exceptions.md R220; what it leaves alone is the spec's decision D7). -/
def Obligations.LoadCopiesTheRom : Prop :=
  ∀ (s : State) (bytes : List Byte),
    (bytes.length ≤ 3584 → ∃ t, s.load bytes = .ok t ∧ perform (.load bytes) s = .next t ∧
      (∀ (i : Nat) (h : i < bytes.length), t.readByte (0x200 + i) = bytes[i]) ∧
      (∀ a, (a < 0x200 ∨ 0x200 + bytes.length ≤ a) → t.readByte a = s.readByte a) ∧
      (∀ r c, t.FB.pixel r c = false) ∧ t = { s with MEM := t.MEM, FB := t.FB }) ∧
    (3584 < bytes.length → s.load bytes = .error .romTooLarge ∧ perform (.load bytes) s = .next s)

/-- `reset()` in any state: the font and zeros in memory, a clear display, no halt, `PC = 0x200`, an empty stack, every
register and timer 0, no wait; the keys, the parameters and the random source stay (70_reset_and_hazards.md R240; all but
memory, display and halt are the spec's decisions D3, D4, D6). -/
def Obligations.ResetGivesTheResetValues : Prop :=
  ∀ s : State, ∃ t, perform .reset s = .next t ∧
    (∀ (a : Nat) (h : a < 80), t.readByte a = s.cfg.font[a]) ∧ (∀ a, 80 ≤ a → t.readByte a = 0) ∧
    (∀ r c, t.FB.pixel r c = false) ∧ t.HALTED = false ∧ t.FAULT = none ∧ t.PC = 0x200 ∧
    (∀ r, t.getV r = 0) ∧ t.I = 0 ∧ t.SP = 0 ∧ (∀ k, t.STACK.get k = 0) ∧ t.DT = 0 ∧ t.ST = 0 ∧ t.WAIT = none ∧
    t.KEY = s.KEY ∧ t.cfg = s.cfg ∧ t.schedule = s.schedule ∧ t.rndIn = s.rndIn ∧ t.draws = s.draws

/-- The state right after reset: the default font and zeros in memory, a clear display, no halt, `PC = 0x200`, an empty stack,
every register and timer 0, no wait, every key up (10_state.md R26; the spec's decisions D3, D4, D5, and D24 for the font). -/
def Obligations.ResetStateHoldsTheResetValues : Prop :=
  (∀ (a : Nat) (h : a < 80), State.reset.readByte a = Config.defaultFont[a]) ∧
  (∀ a, 80 ≤ a → State.reset.readByte a = 0) ∧ (∀ r c, State.reset.FB.pixel r c = false) ∧
  State.reset.HALTED = false ∧ State.reset.FAULT = none ∧ State.reset.PC = 0x200 ∧ (∀ r, State.reset.getV r = 0) ∧
  State.reset.I = 0 ∧ State.reset.SP = 0 ∧ (∀ k, State.reset.STACK.get k = 0) ∧ State.reset.DT = 0 ∧ State.reset.ST = 0 ∧
  State.reset.WAIT = none ∧ (∀ k, State.reset.KEY.get k = false)

/-! ### The whole machine -/

/-- Each piece of state is written only by the instructions the spec names for it: `I` (R13), the stack (R16), the timers
(R17), memory (R46), the display (R19), the wait (R21); no instruction changes the keys (R20) or the parameters. -/
def Obligations.OnlyTheNamedInstructionsWriteEachState : Prop :=
  ∀ (i : Instr) (s t : State), exec i s = .next t →
    (t.I ≠ s.I → (∃ nnn, i = .ldI nnn) ∨ (∃ x, i = .addI x) ∨ (∃ x, i = .ldF x)) ∧
    (t.STACK ≠ s.STACK → ∃ nnn, i = .call nnn) ∧
    (t.SP ≠ s.SP → i = .ret ∨ ∃ nnn, i = .call nnn) ∧
    (t.DT ≠ s.DT → ∃ x, i = .ldDt x) ∧
    (t.ST ≠ s.ST → ∃ x, i = .ldSt x) ∧
    (t.MEM ≠ s.MEM → (∃ x, i = .ldB x) ∨ ∃ x, i = .storeRegs x) ∧
    (t.FB ≠ s.FB → i = .cls ∨ ∃ x y n, i = .drw x y n) ∧
    (t.WAIT ≠ s.WAIT → ∃ x, i = .ldKey x) ∧
    t.KEY = s.KEY ∧ t.cfg = s.cfg ∧ t.schedule = s.schedule

/-- `PC` leaves its advanced value only by the jumps, `CALL`, `RET`, a skip and the key-wait (10_state.md R14), and only the
six instructions of 60_exceptions.md R200 raise a fault at execution. -/
def Obligations.OnlyControlFlowMovesPcAndOnlySixInstructionsFault : Prop :=
  ∀ (i : Instr) (s t : State), exec i s = .next t →
    (t.PC ≠ s.PC → i = .ret ∨ (∃ nnn, i = .jp nnn) ∨ (∃ nnn, i = .call nnn) ∨ (∃ nnn, i = .jpV0 nnn) ∨
      (∃ x, i = .ldKey x) ∨ ((∃ x nn, i = .seImm x nn) ∨ (∃ x nn, i = .sneImm x nn) ∨ (∃ x y, i = .seReg x y) ∨
        (∃ x y, i = .sneReg x y) ∨ (∃ x, i = .skp x) ∨ ∃ x, i = .sknp x) ∧ t.PC = s.PC + 2) ∧
    (t.FAULT ≠ s.FAULT ∨ t.HALTED ≠ s.HALTED →
      (i = .ret ∧ t.FAULT = some .stackUnderflow) ∨ ((∃ nnn, i = .call nnn) ∧ t.FAULT = some .stackOverflow) ∨
      (((∃ x, i = .ldB x) ∨ (∃ x, i = .storeRegs x) ∨ (∃ x, i = .loadRegs x) ∨ ∃ x y n, i = .drw x y n) ∧
        ∃ a, 0xFFF < a ∧ t.FAULT = some (.memoryOutOfRange a)))

/-- The reset state satisfies the invariant. -/
def Obligations.ResetStateSatisfiesTheInvariant : Prop := State.reset.Inv

/-- Every step keeps the invariant: the canonical memory, `HALTED = 1` iff `FAULT ≠ None`, a fault payload the machine raises,
`PC ≤ 0x10FE` (0x1002 without the optional jump), stack entries `CALL` can push, no halt while waiting (10_state.md R15, R16,
R18, R22). -/
def Obligations.EveryStepKeepsTheInvariant : Prop :=
  ∀ s t : State, s.Inv → step s = .next t → t.Inv

/-- A finished program stays where it is: a tick at a self-jump changes nothing (70_reset_and_hazards.md R244 c). -/
def Obligations.FinishedProgramStaysFinished : Prop :=
  ∀ s : State, s.finished → s.schedule = [] → step s = .next s
end

