-- ==== Sys2Proof/Laws/State.lean ====
section
/-! SUPPORT. One lemma per field per state update, so that no later proof unfolds a record update. -/

namespace Sys2Proof.Machine

open Sys2Proof

variable (s : State)

/-! ### setV -/

@[simp] theorem State.setV_V (r : Reg) (b : Byte) : (s.setV r b).V = s.V.set r.val b r.isLt := rfl
@[simp] theorem State.setV_I (r : Reg) (b : Byte) : (s.setV r b).I = s.I := rfl
@[simp] theorem State.setV_PC (r : Reg) (b : Byte) : (s.setV r b).PC = s.PC := rfl
@[simp] theorem State.setV_STACK (r : Reg) (b : Byte) : (s.setV r b).STACK = s.STACK := rfl
@[simp] theorem State.setV_SP (r : Reg) (b : Byte) : (s.setV r b).SP = s.SP := rfl
@[simp] theorem State.setV_DT (r : Reg) (b : Byte) : (s.setV r b).DT = s.DT := rfl
@[simp] theorem State.setV_ST (r : Reg) (b : Byte) : (s.setV r b).ST = s.ST := rfl
@[simp] theorem State.setV_MEM (r : Reg) (b : Byte) : (s.setV r b).MEM = s.MEM := rfl
@[simp] theorem State.setV_FB (r : Reg) (b : Byte) : (s.setV r b).FB = s.FB := rfl
@[simp] theorem State.setV_KEY (r : Reg) (b : Byte) : (s.setV r b).KEY = s.KEY := rfl
@[simp] theorem State.setV_WAIT (r : Reg) (b : Byte) : (s.setV r b).WAIT = s.WAIT := rfl
@[simp] theorem State.setV_HALTED (r : Reg) (b : Byte) : (s.setV r b).HALTED = s.HALTED := rfl
@[simp] theorem State.setV_FAULT (r : Reg) (b : Byte) : (s.setV r b).FAULT = s.FAULT := rfl
@[simp] theorem State.setV_cfg (r : Reg) (b : Byte) : (s.setV r b).cfg = s.cfg := rfl
@[simp] theorem State.setV_schedule (r : Reg) (b : Byte) : (s.setV r b).schedule = s.schedule := rfl
@[simp] theorem State.setV_rndIn (r : Reg) (b : Byte) : (s.setV r b).rndIn = s.rndIn := rfl
@[simp] theorem State.setV_draws (r : Reg) (b : Byte) : (s.setV r b).draws = s.draws := rfl

/-! ### setResultThenFlag -/

@[simp] theorem State.setResultThenFlag_V (x : Reg) (a b : Byte) : (s.setResultThenFlag x a b).V = (s.V.set x.val a x.isLt).set VF.val b VF.isLt := rfl
@[simp] theorem State.setResultThenFlag_I (x : Reg) (a b : Byte) : (s.setResultThenFlag x a b).I = s.I := rfl
@[simp] theorem State.setResultThenFlag_PC (x : Reg) (a b : Byte) : (s.setResultThenFlag x a b).PC = s.PC := rfl
@[simp] theorem State.setResultThenFlag_STACK (x : Reg) (a b : Byte) : (s.setResultThenFlag x a b).STACK = s.STACK := rfl
@[simp] theorem State.setResultThenFlag_SP (x : Reg) (a b : Byte) : (s.setResultThenFlag x a b).SP = s.SP := rfl
@[simp] theorem State.setResultThenFlag_DT (x : Reg) (a b : Byte) : (s.setResultThenFlag x a b).DT = s.DT := rfl
@[simp] theorem State.setResultThenFlag_ST (x : Reg) (a b : Byte) : (s.setResultThenFlag x a b).ST = s.ST := rfl
@[simp] theorem State.setResultThenFlag_MEM (x : Reg) (a b : Byte) : (s.setResultThenFlag x a b).MEM = s.MEM := rfl
@[simp] theorem State.setResultThenFlag_FB (x : Reg) (a b : Byte) : (s.setResultThenFlag x a b).FB = s.FB := rfl
@[simp] theorem State.setResultThenFlag_KEY (x : Reg) (a b : Byte) : (s.setResultThenFlag x a b).KEY = s.KEY := rfl
@[simp] theorem State.setResultThenFlag_WAIT (x : Reg) (a b : Byte) : (s.setResultThenFlag x a b).WAIT = s.WAIT := rfl
@[simp] theorem State.setResultThenFlag_HALTED (x : Reg) (a b : Byte) : (s.setResultThenFlag x a b).HALTED = s.HALTED := rfl
@[simp] theorem State.setResultThenFlag_FAULT (x : Reg) (a b : Byte) : (s.setResultThenFlag x a b).FAULT = s.FAULT := rfl
@[simp] theorem State.setResultThenFlag_cfg (x : Reg) (a b : Byte) : (s.setResultThenFlag x a b).cfg = s.cfg := rfl
@[simp] theorem State.setResultThenFlag_schedule (x : Reg) (a b : Byte) : (s.setResultThenFlag x a b).schedule = s.schedule := rfl
@[simp] theorem State.setResultThenFlag_rndIn (x : Reg) (a b : Byte) : (s.setResultThenFlag x a b).rndIn = s.rndIn := rfl
@[simp] theorem State.setResultThenFlag_draws (x : Reg) (a b : Byte) : (s.setResultThenFlag x a b).draws = s.draws := rfl

/-! ### writeByte -/

@[simp] theorem State.writeByte_V (a : Nat) (v : Byte) : (s.writeByte a v).V = s.V := rfl
@[simp] theorem State.writeByte_I (a : Nat) (v : Byte) : (s.writeByte a v).I = s.I := rfl
@[simp] theorem State.writeByte_PC (a : Nat) (v : Byte) : (s.writeByte a v).PC = s.PC := rfl
@[simp] theorem State.writeByte_STACK (a : Nat) (v : Byte) : (s.writeByte a v).STACK = s.STACK := rfl
@[simp] theorem State.writeByte_SP (a : Nat) (v : Byte) : (s.writeByte a v).SP = s.SP := rfl
@[simp] theorem State.writeByte_DT (a : Nat) (v : Byte) : (s.writeByte a v).DT = s.DT := rfl
@[simp] theorem State.writeByte_ST (a : Nat) (v : Byte) : (s.writeByte a v).ST = s.ST := rfl
@[simp] theorem State.writeByte_MEM (a : Nat) (v : Byte) : (s.writeByte a v).MEM = Memory.write s.cfg.font s.MEM a v := rfl
@[simp] theorem State.writeByte_FB (a : Nat) (v : Byte) : (s.writeByte a v).FB = s.FB := rfl
@[simp] theorem State.writeByte_KEY (a : Nat) (v : Byte) : (s.writeByte a v).KEY = s.KEY := rfl
@[simp] theorem State.writeByte_WAIT (a : Nat) (v : Byte) : (s.writeByte a v).WAIT = s.WAIT := rfl
@[simp] theorem State.writeByte_HALTED (a : Nat) (v : Byte) : (s.writeByte a v).HALTED = s.HALTED := rfl
@[simp] theorem State.writeByte_FAULT (a : Nat) (v : Byte) : (s.writeByte a v).FAULT = s.FAULT := rfl
@[simp] theorem State.writeByte_cfg (a : Nat) (v : Byte) : (s.writeByte a v).cfg = s.cfg := rfl
@[simp] theorem State.writeByte_schedule (a : Nat) (v : Byte) : (s.writeByte a v).schedule = s.schedule := rfl
@[simp] theorem State.writeByte_rndIn (a : Nat) (v : Byte) : (s.writeByte a v).rndIn = s.rndIn := rfl
@[simp] theorem State.writeByte_draws (a : Nat) (v : Byte) : (s.writeByte a v).draws = s.draws := rfl

/-! ### advance -/

@[simp] theorem State.advance_V : (s.advance).V = s.V := rfl
@[simp] theorem State.advance_I : (s.advance).I = s.I := rfl
@[simp] theorem State.advance_PC : (s.advance).PC = s.PC + 2 := rfl
@[simp] theorem State.advance_STACK : (s.advance).STACK = s.STACK := rfl
@[simp] theorem State.advance_SP : (s.advance).SP = s.SP := rfl
@[simp] theorem State.advance_DT : (s.advance).DT = s.DT := rfl
@[simp] theorem State.advance_ST : (s.advance).ST = s.ST := rfl
@[simp] theorem State.advance_MEM : (s.advance).MEM = s.MEM := rfl
@[simp] theorem State.advance_FB : (s.advance).FB = s.FB := rfl
@[simp] theorem State.advance_KEY : (s.advance).KEY = s.KEY := rfl
@[simp] theorem State.advance_WAIT : (s.advance).WAIT = s.WAIT := rfl
@[simp] theorem State.advance_HALTED : (s.advance).HALTED = s.HALTED := rfl
@[simp] theorem State.advance_FAULT : (s.advance).FAULT = s.FAULT := rfl
@[simp] theorem State.advance_cfg : (s.advance).cfg = s.cfg := rfl
@[simp] theorem State.advance_schedule : (s.advance).schedule = s.schedule := rfl
@[simp] theorem State.advance_rndIn : (s.advance).rndIn = s.rndIn := rfl
@[simp] theorem State.advance_draws : (s.advance).draws = s.draws := rfl

/-! ### skip -/

@[simp] theorem State.skip_V : (s.skip).V = s.V := rfl
@[simp] theorem State.skip_I : (s.skip).I = s.I := rfl
@[simp] theorem State.skip_PC : (s.skip).PC = s.PC + 2 := rfl
@[simp] theorem State.skip_STACK : (s.skip).STACK = s.STACK := rfl
@[simp] theorem State.skip_SP : (s.skip).SP = s.SP := rfl
@[simp] theorem State.skip_DT : (s.skip).DT = s.DT := rfl
@[simp] theorem State.skip_ST : (s.skip).ST = s.ST := rfl
@[simp] theorem State.skip_MEM : (s.skip).MEM = s.MEM := rfl
@[simp] theorem State.skip_FB : (s.skip).FB = s.FB := rfl
@[simp] theorem State.skip_KEY : (s.skip).KEY = s.KEY := rfl
@[simp] theorem State.skip_WAIT : (s.skip).WAIT = s.WAIT := rfl
@[simp] theorem State.skip_HALTED : (s.skip).HALTED = s.HALTED := rfl
@[simp] theorem State.skip_FAULT : (s.skip).FAULT = s.FAULT := rfl
@[simp] theorem State.skip_cfg : (s.skip).cfg = s.cfg := rfl
@[simp] theorem State.skip_schedule : (s.skip).schedule = s.schedule := rfl
@[simp] theorem State.skip_rndIn : (s.skip).rndIn = s.rndIn := rfl
@[simp] theorem State.skip_draws : (s.skip).draws = s.draws := rfl

/-! ### jump -/

@[simp] theorem State.jump_V (w : Word) : (s.jump w).V = s.V := rfl
@[simp] theorem State.jump_I (w : Word) : (s.jump w).I = s.I := rfl
@[simp] theorem State.jump_PC (w : Word) : (s.jump w).PC = w := rfl
@[simp] theorem State.jump_STACK (w : Word) : (s.jump w).STACK = s.STACK := rfl
@[simp] theorem State.jump_SP (w : Word) : (s.jump w).SP = s.SP := rfl
@[simp] theorem State.jump_DT (w : Word) : (s.jump w).DT = s.DT := rfl
@[simp] theorem State.jump_ST (w : Word) : (s.jump w).ST = s.ST := rfl
@[simp] theorem State.jump_MEM (w : Word) : (s.jump w).MEM = s.MEM := rfl
@[simp] theorem State.jump_FB (w : Word) : (s.jump w).FB = s.FB := rfl
@[simp] theorem State.jump_KEY (w : Word) : (s.jump w).KEY = s.KEY := rfl
@[simp] theorem State.jump_WAIT (w : Word) : (s.jump w).WAIT = s.WAIT := rfl
@[simp] theorem State.jump_HALTED (w : Word) : (s.jump w).HALTED = s.HALTED := rfl
@[simp] theorem State.jump_FAULT (w : Word) : (s.jump w).FAULT = s.FAULT := rfl
@[simp] theorem State.jump_cfg (w : Word) : (s.jump w).cfg = s.cfg := rfl
@[simp] theorem State.jump_schedule (w : Word) : (s.jump w).schedule = s.schedule := rfl
@[simp] theorem State.jump_rndIn (w : Word) : (s.jump w).rndIn = s.rndIn := rfl
@[simp] theorem State.jump_draws (w : Word) : (s.jump w).draws = s.draws := rfl

/-! ### hostReset -/

@[simp] theorem State.hostReset_V : (s.hostReset).V = Vector.replicate 16 0 := rfl
@[simp] theorem State.hostReset_I : (s.hostReset).I = 0 := rfl
@[simp] theorem State.hostReset_PC : (s.hostReset).PC = 0x200 := rfl
@[simp] theorem State.hostReset_STACK : (s.hostReset).STACK = Vector.replicate 16 0 := rfl
@[simp] theorem State.hostReset_SP : (s.hostReset).SP = 0 := rfl
@[simp] theorem State.hostReset_DT : (s.hostReset).DT = 0 := rfl
@[simp] theorem State.hostReset_ST : (s.hostReset).ST = 0 := rfl
@[simp] theorem State.hostReset_MEM : (s.hostReset).MEM = [] := rfl
@[simp] theorem State.hostReset_FB : (s.hostReset).FB = Framebuffer.clear := rfl
@[simp] theorem State.hostReset_KEY : (s.hostReset).KEY = s.KEY := rfl
@[simp] theorem State.hostReset_WAIT : (s.hostReset).WAIT = none := rfl
@[simp] theorem State.hostReset_HALTED : (s.hostReset).HALTED = false := rfl
@[simp] theorem State.hostReset_FAULT : (s.hostReset).FAULT = none := rfl
@[simp] theorem State.hostReset_cfg : (s.hostReset).cfg = s.cfg := rfl
@[simp] theorem State.hostReset_schedule : (s.hostReset).schedule = s.schedule := rfl
@[simp] theorem State.hostReset_rndIn : (s.hostReset).rndIn = s.rndIn := rfl
@[simp] theorem State.hostReset_draws : (s.hostReset).draws = s.draws := rfl

/-! ### tickTimers -/

@[simp] theorem State.tickTimers_V : (s.tickTimers).V = s.V := rfl
@[simp] theorem State.tickTimers_I : (s.tickTimers).I = s.I := rfl
@[simp] theorem State.tickTimers_PC : (s.tickTimers).PC = s.PC := rfl
@[simp] theorem State.tickTimers_STACK : (s.tickTimers).STACK = s.STACK := rfl
@[simp] theorem State.tickTimers_SP : (s.tickTimers).SP = s.SP := rfl
@[simp] theorem State.tickTimers_DT : (s.tickTimers).DT = countDown s.DT := rfl
@[simp] theorem State.tickTimers_ST : (s.tickTimers).ST = countDown s.ST := rfl
@[simp] theorem State.tickTimers_MEM : (s.tickTimers).MEM = s.MEM := rfl
@[simp] theorem State.tickTimers_FB : (s.tickTimers).FB = s.FB := rfl
@[simp] theorem State.tickTimers_KEY : (s.tickTimers).KEY = s.KEY := rfl
@[simp] theorem State.tickTimers_WAIT : (s.tickTimers).WAIT = s.WAIT := rfl
@[simp] theorem State.tickTimers_HALTED : (s.tickTimers).HALTED = s.HALTED := rfl
@[simp] theorem State.tickTimers_FAULT : (s.tickTimers).FAULT = s.FAULT := rfl
@[simp] theorem State.tickTimers_cfg : (s.tickTimers).cfg = s.cfg := rfl
@[simp] theorem State.tickTimers_schedule : (s.tickTimers).schedule = s.schedule := rfl
@[simp] theorem State.tickTimers_rndIn : (s.tickTimers).rndIn = s.rndIn := rfl
@[simp] theorem State.tickTimers_draws : (s.tickTimers).draws = s.draws := rfl

/-! ### skipIf -/

@[simp] theorem State.skipIf_V (c : Bool) : (s.skipIf c).V = s.V := by cases c <;> rfl
@[simp] theorem State.skipIf_I (c : Bool) : (s.skipIf c).I = s.I := by cases c <;> rfl
@[simp] theorem State.skipIf_PC (c : Bool) : (s.skipIf c).PC = if c then s.PC + 2 else s.PC := by
  cases c <;> rfl
@[simp] theorem State.skipIf_STACK (c : Bool) : (s.skipIf c).STACK = s.STACK := by cases c <;> rfl
@[simp] theorem State.skipIf_SP (c : Bool) : (s.skipIf c).SP = s.SP := by cases c <;> rfl
@[simp] theorem State.skipIf_DT (c : Bool) : (s.skipIf c).DT = s.DT := by cases c <;> rfl
@[simp] theorem State.skipIf_ST (c : Bool) : (s.skipIf c).ST = s.ST := by cases c <;> rfl
@[simp] theorem State.skipIf_MEM (c : Bool) : (s.skipIf c).MEM = s.MEM := by cases c <;> rfl
@[simp] theorem State.skipIf_FB (c : Bool) : (s.skipIf c).FB = s.FB := by cases c <;> rfl
@[simp] theorem State.skipIf_KEY (c : Bool) : (s.skipIf c).KEY = s.KEY := by cases c <;> rfl
@[simp] theorem State.skipIf_WAIT (c : Bool) : (s.skipIf c).WAIT = s.WAIT := by cases c <;> rfl
@[simp] theorem State.skipIf_HALTED (c : Bool) : (s.skipIf c).HALTED = s.HALTED := by cases c <;> rfl
@[simp] theorem State.skipIf_FAULT (c : Bool) : (s.skipIf c).FAULT = s.FAULT := by cases c <;> rfl
@[simp] theorem State.skipIf_cfg (c : Bool) : (s.skipIf c).cfg = s.cfg := by cases c <;> rfl
@[simp] theorem State.skipIf_schedule (c : Bool) : (s.skipIf c).schedule = s.schedule := by cases c <;> rfl
@[simp] theorem State.skipIf_rndIn (c : Bool) : (s.skipIf c).rndIn = s.rndIn := by cases c <;> rfl
@[simp] theorem State.skipIf_draws (c : Bool) : (s.skipIf c).draws = s.draws := by cases c <;> rfl

/-! ### Registers -/

@[simp] theorem State.getV_setV_same (r : Reg) (b : Byte) : (s.setV r b).getV r = b := by
  simp [State.getV, State.setV, Vector.get_eq_getElem]

theorem State.getV_setV (r q : Reg) (b : Byte) : (s.setV r b).getV q = if q = r then b else s.getV q := by
  simp only [State.getV, State.setV, Vector.get_eq_getElem, Vector.getElem_set]
  split <;> split <;> simp_all [Fin.ext_iff, eq_comm]

theorem State.getV_setV_ne (r q : Reg) (b : Byte) (h : q ≠ r) : (s.setV r b).getV q = s.getV q := by
  rw [State.getV_setV, if_neg h]

/-- A register after a result and a flag are written: the flag wins where the destination is `VF` (R12). -/
theorem State.getV_setResultThenFlag (x q : Reg) (a b : Byte) :
    (s.setResultThenFlag x a b).getV q = if q = VF then b else if q = x then a else s.getV q := by
  simp only [State.setResultThenFlag, State.getV_setV]

/-- `getV` reads the register file only. -/
theorem State.getV_congr (s t : State) (h : t.V = s.V) (r : Reg) : t.getV r = s.getV r := by
  simp only [State.getV, h]

/-- `readByte` reads memory and the font only. -/
theorem State.readByte_congr (s t : State) (hm : t.MEM = s.MEM) (hc : t.cfg = s.cfg) (a : Nat) :
    t.readByte a = s.readByte a := by
  simp only [State.readByte, hm, hc]

end Sys2Proof.Machine
end

