-- ==== Sys2Proof/Laws/Memory.lean ====
section
/-! SUPPORT. Memory: read after write, the frame of a write, and that every operation keeps the canonical form. -/

namespace Sys2Proof.Machine

open Sys2Proof

namespace Memory

variable (font : Font)

@[simp] theorem read_nil (a : Nat) : read font [] a = resetByte font a := rfl

theorem read_erase (m : Memory) (a b : Nat) :
    read font (erase m a) b = if b = a then resetByte font b else read font m b := by
  induction m with
  | nil => simp [erase]
  | cons c m ih =>
    by_cases hc : c.1 = a
    · have : erase (c :: m) a = erase m a := by simp [erase, hc]
      rw [this, ih, read, hc]
      split <;> simp_all
    · have : erase (c :: m) a = c :: erase m a := by simp [erase, hc]
      rw [this, read, ih, read]
      split
      · subst_vars; simp [hc]
      · rfl

theorem read_insert (m : Memory) (a b : Nat) (v : Byte) (hm : ∀ c ∈ m, c.1 ≠ a) :
    read font (insert a v m) b = if b = a then v else read font m b := by
  induction m with
  | nil => simp [insert, read]
  | cons c m ih =>
    have hc : c.1 ≠ a := hm c (by simp)
    have ih' := ih (fun d hd => hm d (by simp [hd]))
    simp only [insert]
    split
    · rfl
    · rw [read, ih', read]
      split
      · subst_vars; simp [hc]
      · rfl

theorem ne_of_mem_erase (m : Memory) (a : Nat) : ∀ c ∈ erase m a, c.1 ≠ a := by
  intro c hc
  simpa [erase] using (List.mem_filter.mp hc).2

/-- A read after a write: the written byte at its address, the old byte at every other (R48, R49). -/
theorem read_write (m : Memory) (a b : Nat) (v : Byte) :
    read font (write font m a v) b = if b = a then v else read font m b := by
  unfold write
  split
  · rename_i hv
    rw [read_erase]
    split
    · subst_vars; rfl
    · rfl
  · rw [read_insert font _ _ _ _ (ne_of_mem_erase m a)]
    split
    · rfl
    · rename_i hb
      rw [read_erase, if_neg hb]

theorem mem_insert (m : Memory) (a : Nat) (v : Byte) (c : Host.Cell) (h : c ∈ insert a v m) :
    c = (a, v) ∨ c ∈ m := by
  induction m with
  | nil => simpa [insert] using h
  | cons d m ih =>
    simp only [insert] at h
    split at h
    · simpa using h
    · rcases List.mem_cons.mp h with h | h
      · simp [h]
      · rcases ih h with h | h
        · exact .inl h
        · exact .inr (List.mem_cons_of_mem _ h)

theorem sorted_insert (m : Memory) (a : Nat) (v : Byte) (hs : m.Pairwise (fun c d => c.1 < d.1))
    (hm : ∀ c ∈ m, c.1 ≠ a) : (insert a v m).Pairwise (fun c d => c.1 < d.1) := by
  induction m with
  | nil => simp [insert]
  | cons c m ih =>
    obtain ⟨hc, hs⟩ := List.pairwise_cons.mp hs
    simp only [insert]
    split
    · rename_i hlt
      refine List.pairwise_cons.mpr ⟨?_, List.pairwise_cons.mpr ⟨hc, hs⟩⟩
      intro d hd
      rcases List.mem_cons.mp hd with rfl | hd
      · exact hlt
      · exact Nat.lt_trans hlt (hc d hd)
    · rename_i hlt
      have hne : c.1 ≠ a := hm c (by simp)
      refine List.pairwise_cons.mpr ⟨?_, ih hs (fun d hd => hm d (by simp [hd]))⟩
      intro d hd
      rcases mem_insert m a v d hd with rfl | hd
      · show c.1 < a
        omega
      · exact hc d hd

theorem wf_nil : wf font [] := by simp [wf]

theorem wf_erase (m : Memory) (a : Nat) (h : wf font m) : wf font (erase m a) :=
  ⟨h.1.filter _, fun c hc => h.2 c (List.mem_filter.mp hc).1⟩

/-- A write to an address of the memory keeps the canonical form. -/
theorem wf_write (m : Memory) (a : Nat) (v : Byte) (ha : a < 4096) (h : wf font m) :
    wf font (write font m a v) := by
  unfold write
  split
  · exact wf_erase font m a h
  · rename_i hv
    have he := wf_erase font m a h
    refine ⟨sorted_insert _ a v he.1 (ne_of_mem_erase m a), ?_⟩
    intro c hc
    rcases mem_insert _ a v c hc with rfl | hc
    · exact ⟨ha, hv⟩
    · exact he.2 c hc

end Memory

/-- `MEM[b]` after `MEM[a] <- v` (R48). -/
theorem State.readByte_writeByte (s : State) (a b : Nat) (v : Byte) :
    (s.writeByte a v).readByte b = if b = a then v else s.readByte b :=
  Memory.read_write _ _ _ _ _

@[simp] theorem State.readByte_writeByte_same (s : State) (a : Nat) (v : Byte) :
    (s.writeByte a v).readByte a = v := by
  simp [State.readByte_writeByte]

theorem State.readByte_writeByte_ne (s : State) (a b : Nat) (v : Byte) (h : b ≠ a) :
    (s.writeByte a v).readByte b = s.readByte b := by
  rw [State.readByte_writeByte, if_neg h]

end Sys2Proof.Machine
end

