-- ==== Sys2Proof/Laws/Ops.lean ====
section
/-! SUPPORT. One lemma per shared operation that says all it can do; the provers cite these instead of unfolding. -/

namespace Sys2Proof.Machine

open Sys2Proof

/-! ### Range-checked accesses (R42) -/

theorem State.memRead_ok (s : State) (a : Nat) (h : a ≤ 0xFFF) : s.memRead a = .ok (s.readByte a) := by
  simp [State.memRead, Nat.not_lt.mpr h]

theorem State.memRead_error (s : State) (a : Nat) (h : 0xFFF < a) :
    s.memRead a = .error (.memoryOutOfRange a) := by
  simp [State.memRead, h]

theorem State.memWrite_ok (s : State) (a : Nat) (v : Byte) (h : a ≤ 0xFFF) :
    s.memWrite a v = .ok (s.writeByte a v) := by
  simp [State.memWrite, Nat.not_lt.mpr h]

theorem State.memWrite_error (s : State) (a : Nat) (v : Byte) (h : 0xFFF < a) :
    s.memWrite a v = .error (.memoryOutOfRange a) := by
  simp [State.memWrite, h]

/-! ### Unchecked byte runs -/

/-- A run of bytes changes memory only. -/
theorem State.writeBytes_frame (bs : List Byte) : ∀ (s : State) (a : Nat),
    s.writeBytes a bs = { s with MEM := (s.writeBytes a bs).MEM } := by
  induction bs with
  | nil => intro s a; rfl
  | cons b bs ih =>
    intro s a
    rw [State.writeBytes, ih]
    rfl

/-- The bytes of a run land at consecutive addresses and nowhere else. -/
theorem State.readByte_writeBytes (bs : List Byte) : ∀ (s : State) (a b : Nat),
    (s.writeBytes a bs).readByte b =
      if h : a ≤ b ∧ b < a + bs.length then bs[b - a]'(by omega) else s.readByte b := by
  induction bs with
  | nil =>
    intro s a b
    rw [dif_neg (by simp only [List.length_nil]; omega)]
    rfl
  | cons c bs ih =>
    intro s a b
    rw [State.writeBytes, ih]
    simp only [List.length_cons]
    by_cases h1 : a + 1 ≤ b ∧ b < a + 1 + bs.length
    · rw [dif_pos h1, dif_pos (by omega)]
      have : b - a = (b - (a + 1)) + 1 := by omega
      simp [this]
    · rw [dif_neg h1, State.readByte_writeByte]
      by_cases h2 : b = a
      · rw [if_pos h2, dif_pos (by omega)]
        simp [h2]
      · rw [if_neg h2, dif_neg (by omega)]

/-- A run inside memory keeps the canonical form. -/
theorem State.writeBytes_wf (bs : List Byte) : ∀ (s : State) (a : Nat), a + bs.length ≤ 4096 →
    Memory.wf s.cfg.font s.MEM → Memory.wf s.cfg.font (s.writeBytes a bs).MEM := by
  induction bs with
  | nil => intro s a _ h; exact h
  | cons b bs ih =>
    intro s a hl h
    simp only [List.length_cons] at hl
    exact ih (s.writeByte a b) (a + 1) (by omega) (Memory.wf_write _ _ _ _ (by omega) h)

/-! ### Stores (R46, R47) -/

/-- A store that stays inside memory writes its bytes and goes on. -/
theorem storeBytes_ok (bs : List Byte) : ∀ (a : Nat) (s : State), a + bs.length ≤ 4096 →
    storeBytes a bs s = .next (s.writeBytes a bs) := by
  induction bs with
  | nil => intro a s _; rfl
  | cons b bs ih =>
    intro a s h
    simp only [List.length_cons] at h
    rw [storeBytes, State.memWrite_ok s a b (by omega)]
    exact ih (a + 1) (s.writeByte a b) (by omega)

/-- A store that leaves memory at its `k`-th byte writes the `k` bytes before it and faults there. -/
theorem storeBytes_fault (bs : List Byte) : ∀ (a : Nat) (s : State) (k : Nat), k < bs.length →
    (k = 0 ∨ a + k ≤ 0x1000) → 0xFFF < a + k →
    storeBytes a bs s = raise (.memoryOutOfRange (a + k)) (s.writeBytes a (bs.take k)) := by
  induction bs with
  | nil => intro a s k h; simp at h
  | cons b bs ih =>
    intro a s k hk h0 h
    by_cases hz : k = 0
    · subst hz
      rw [storeBytes, State.memWrite_error s a b (by omega)]
      rfl
    · obtain ⟨j, rfl⟩ : ∃ j, k = j + 1 := ⟨k - 1, by omega⟩
      simp only [List.length_cons] at hk
      rw [storeBytes, State.memWrite_ok s a b (by omega)]
      have hrec := ih (a + 1) (s.writeByte a b) j (by omega) (by omega) (by omega)
      have : a + 1 + j = a + (j + 1) := by omega
      rw [this] at hrec
      simpa [State.writeBytes] using hrec

/-- Everything a store can do: it answers a next state that differs in memory, and in the two fault fields together. -/
theorem storeBytes_next (bs : List Byte) : ∀ (a : Nat) (s : State), ∃ t, storeBytes a bs s = .next t ∧
    (t = { s with MEM := t.MEM } ∨
      ∃ k < bs.length, 0xFFF < a + k ∧ (k = 0 ∨ a + k ≤ 0x1000) ∧
        t = { s with MEM := t.MEM, HALTED := true, FAULT := some (.memoryOutOfRange (a + k)) }) ∧
    (Memory.wf s.cfg.font s.MEM → Memory.wf s.cfg.font t.MEM) := by
  induction bs with
  | nil => intro a s; exact ⟨s, rfl, .inl rfl, id⟩
  | cons b bs ih =>
    intro a s
    by_cases ha : a ≤ 0xFFF
    · obtain ⟨t, ht, hf, hw⟩ := ih (a + 1) (s.writeByte a b)
      refine ⟨t, by rw [storeBytes, State.memWrite_ok s a b ha]; exact ht, ?_,
        fun h => hw (Memory.wf_write _ _ _ _ (by omega) h)⟩
      rcases hf with hf | ⟨k, hk, h1, h2, hf⟩
      · exact .inl (by rw [hf]; rfl)
      · refine .inr ⟨k + 1, by simpa using hk, by omega, by omega, ?_⟩
        have : a + 1 + k = a + (k + 1) := by omega
        rw [this] at hf
        rw [hf]; rfl
    · refine ⟨{ s with HALTED := true, FAULT := some (.memoryOutOfRange a) }, ?_, ?_, id⟩
      · rw [storeBytes, State.memWrite_error s a b (by omega)]; rfl
      · exact .inr ⟨0, by simp, by omega, .inl rfl, rfl⟩

/-! ### Loads (R46, R47) -/

/-- Everything a load can do: it answers a next state that differs in registers, and in the two fault fields together. -/
theorem loadFrom_next (base : Nat) (rs : List Reg) : ∀ (s : State), ∃ t, loadFrom base rs s = .next t ∧
    (t = { s with V := t.V } ∨
      ∃ r ∈ rs, 0xFFF < base + r.val ∧
        t = { s with V := t.V, HALTED := true, FAULT := some (.memoryOutOfRange (base + r.val)) }) ∧
    ∀ q, q ∉ rs → t.getV q = s.getV q := by
  induction rs with
  | nil => intro s; exact ⟨s, rfl, .inl rfl, fun _ _ => rfl⟩
  | cons r rs ih =>
    intro s
    by_cases ha : base + r.val ≤ 0xFFF
    · obtain ⟨t, ht, hf, hq⟩ := ih (s.setV r (s.readByte (base + r.val)))
      refine ⟨t, by rw [loadFrom, State.memRead_ok s _ ha]; exact ht, ?_, ?_⟩
      · rcases hf with hf | ⟨k, hk, h1, hf⟩
        · exact .inl (by rw [hf]; rfl)
        · exact .inr ⟨k, List.mem_cons_of_mem _ hk, h1, by rw [hf]; rfl⟩
      · intro q hn
        simp only [List.mem_cons, not_or] at hn
        rw [hq q hn.2, State.getV_setV_ne _ _ _ _ hn.1]
    · refine ⟨{ s with HALTED := true, FAULT := some (.memoryOutOfRange (base + r.val)) }, ?_, ?_, fun _ _ => rfl⟩
      · rw [loadFrom, State.memRead_error s _ (by omega)]; rfl
      · exact .inr ⟨r, by simp, by omega, rfl⟩

/-- A load whose addresses all lie in memory loads every listed register from its own address and goes on. -/
theorem loadFrom_ok (base : Nat) (rs : List Reg) : ∀ (s : State), (∀ r ∈ rs, base + r.val ≤ 0xFFF) →
    ∃ t, loadFrom base rs s = .next t ∧ t = { s with V := t.V } ∧
      ∀ q, t.getV q = if q ∈ rs then s.readByte (base + q.val) else s.getV q := by
  induction rs with
  | nil => intro s _; exact ⟨s, rfl, rfl, fun q => by simp⟩
  | cons r rs ih =>
    intro s h
    obtain ⟨t, ht, hf, hq⟩ := ih (s.setV r (s.readByte (base + r.val))) (fun q hm => h q (by simp [hm]))
    refine ⟨t, by rw [loadFrom, State.memRead_ok s _ (h r (by simp))]; exact ht, by rw [hf]; rfl, ?_⟩
    intro q
    rw [hq q]
    have hb : (s.setV r (s.readByte (base + r.val))).readByte (base + q.val) = s.readByte (base + q.val) := rfl
    by_cases hqs : q ∈ rs
    · simp [hqs, hb]
    · by_cases hqr : q = r
      · subst hqr; simp [hqs]
      · simp [hqs, hqr, State.getV_setV_ne]

theorem mem_allRegs (r : Reg) : r ∈ allRegs := by
  revert r; decide

theorem mem_allKeys (k : Key) : k ∈ allKeys := by
  revert k; decide

theorem mem_regsUpTo (x r : Reg) : r ∈ regsUpTo x ↔ r.val ≤ x.val := by
  revert x r; decide

theorem length_regsUpTo (x : Reg) : (regsUpTo x).length = x.val + 1 := by
  revert x; decide

theorem getElem_regsUpTo (x : Reg) : ∀ (k : Nat) (h : k < (regsUpTo x).length), ((regsUpTo x)[k]).val = k := by
  revert x; decide

/-! ### Fetch (R83) -/

theorem State.fetch_ok (s : State) (h : s.PC.toNat ≤ 0xFFE) :
    s.fetch = .ok (wordOfBytes (s.readByte s.PC.toNat) (s.readByte (s.PC.toNat + 1))) := by
  rw [State.fetch, State.memRead_ok s _ (by omega), State.memRead_ok s _ (by omega)]

theorem State.fetch_fault (s : State) (h : 0xFFE < s.PC.toNat) :
    s.fetch = .error (.memoryOutOfRange (if s.PC.toNat = 0xFFF then 0x1000 else s.PC.toNat)) := by
  by_cases hp : s.PC.toNat = 0xFFF
  · rw [State.fetch, State.memRead_ok s _ (by omega), State.memRead_error s _ (by omega), hp]
    rfl
  · rw [State.fetch, State.memRead_error s _ (by omega), if_neg hp]

/-! ### Loads that fault midway (R47) -/

/-- A load that leaves memory at register `q`: the registers before it are loaded, then the fault is raised (R47). -/
theorem loadFrom_fault (base : Nat) : ∀ (rs : List Reg) (s : State) (q : Reg) (rest : List Reg), (∀ r ∈ rs, base + r.val ≤ 0xFFF) →
    0xFFF < base + q.val → ∃ u, loadFrom base (rs ++ q :: rest) s = raise (.memoryOutOfRange (base + q.val)) u ∧
      u = { s with V := u.V } ∧ ∀ p, u.getV p = if p ∈ rs then s.readByte (base + p.val) else s.getV p := by
  intro rs
  induction rs with
  | nil =>
    intro s q rest _ h
    refine ⟨s, ?_, rfl, by simp⟩
    simp only [List.nil_append]
    rw [loadFrom, State.memRead_error s _ h]
  | cons r rs ih =>
    intro s q rest h hq
    obtain ⟨u, hu, hf, hp⟩ := ih (s.setV r (s.readByte (base + r.val))) q rest (fun p hp => h p (by simp [hp])) hq
    refine ⟨u, ?_, by rw [hf]; rfl, ?_⟩
    · rw [List.cons_append, loadFrom, State.memRead_ok s _ (h r (by simp))]; exact hu
    · intro p
      rw [hp]
      have hb : (s.setV r (s.readByte (base + r.val))).readByte (base + p.val) = s.readByte (base + p.val) := rfl
      by_cases h1 : p ∈ rs
      · simp [h1, hb]
      · by_cases h2 : p = r
        · subst h2; simp [h1]
        · simp [h1, h2, State.getV_setV_ne]

/-- The block `V[0]..V[x]` cut at register `k`. -/
theorem regsUpTo_split (x k : Reg) (h : k ≤ x) : ∃ rest, regsUpTo x = allRegs.take k.val ++ k :: rest := by
  refine ⟨(regsUpTo x).drop (k.val + 1), ?_⟩
  revert x k; decide

theorem mem_take_allRegs (k r : Reg) : r ∈ allRegs.take k.val ↔ r < k := by revert k r; decide

/-! ### Call stack (R16) -/

theorem State.push_ok (s : State) (v : Word) (h : s.SP.val < 16) :
    s.push v = .ok { s with STACK := s.STACK.set s.SP.val v h, SP := ⟨s.SP.val + 1, Nat.succ_lt_succ h⟩ } := by
  simp [State.push, h]

theorem State.push_full (s : State) (v : Word) (h : s.SP.val = 16) : s.push v = .error .stackOverflow := by
  simp [State.push, h]

theorem State.pop_empty (s : State) (h : s.SP.val = 0) : s.pop = .error .stackUnderflow := by
  simp [State.pop, h]

theorem State.pop_ok (s : State) (k : Fin 16) (h : s.SP.val = k.val + 1) :
    s.pop = .ok (s.STACK.get k, { s with SP := ⟨k.val, Nat.lt_succ_of_lt k.isLt⟩ }) := by
  have h0 : ¬ s.SP.val = 0 := by omega
  simp only [State.pop, h0, dite_false]
  simp [h, Vector.get_eq_getElem]

/-! ### Random bytes (R174) -/

/-- Everything a draw changes: the supplied bytes and the count. -/
theorem State.drawRnd_frame (s : State) :
    s.drawRnd.2 = { s with rndIn := s.rndIn.tail, draws := s.draws + 1 } := by
  unfold State.drawRnd
  cases h : s.rndIn with
  | nil => simp only [List.tail_nil]
  | cons b bs => simp

/-- The wait check of `tick()` (R82): either nothing, or the key, the end of the wait and the advance. -/
theorem State.waitCheck_cases (s : State) (x : Reg) :
    s.waitCheck x = s ∨
      s.waitCheck x = { s.setV x (keyByte (pickKey s.cfg.keyPick s.KEY)) with WAIT := none, PC := s.PC + 2 } := by
  unfold State.waitCheck
  split
  · exact .inr rfl
  · exact .inl rfl

end Sys2Proof.Machine
end

