-- ==== Sys2Proof/Laws/Decode.lean ====
section
/-! SUPPORT. The fields of the encoded formats (R61, R71), and the words of their nibbles. -/

namespace Sys2Proof

@[simp] theorem regBits_toFin (r : Reg) : (regBits r).toFin = r := rfl

/-- The word of four nibbles, most significant first. -/
def nibbles (a b c d : Nibble) : Word := a ++ (b ++ (c ++ d))

theorem nibbles_op (a b c d : Nibble) : opField (nibbles a b c d) = a := by
  unfold opField nibbles
  ext i hi
  simp only [BitVec.getElem_extractLsb', BitVec.getLsbD_append]
  rw [if_neg (by omega)]
  simp [BitVec.getLsbD_eq_getElem hi]

theorem nibbles_x (a b c d : Nibble) : xField (nibbles a b c d) = b.toFin := by
  unfold xField nibbles
  congr 1
  ext i hi
  simp only [BitVec.getElem_extractLsb', BitVec.getLsbD_append]
  rw [if_pos (by omega), if_neg (by omega)]
  rw [show 8 + i - (4 + 4) = i by omega]
  simp [BitVec.getLsbD_eq_getElem hi]

theorem nibbles_y (a b c d : Nibble) : yField (nibbles a b c d) = c.toFin := by
  unfold yField nibbles
  congr 1
  ext i hi
  simp only [BitVec.getElem_extractLsb', BitVec.getLsbD_append]
  rw [if_pos (by omega), if_pos (by omega), if_neg (by omega)]
  rw [show 4 + i - 4 = i by omega]
  simp [BitVec.getLsbD_eq_getElem hi]

theorem nibbles_n (a b c d : Nibble) : nField (nibbles a b c d) = d := by
  unfold nField nibbles
  ext i hi
  simp only [BitVec.getElem_extractLsb', BitVec.getLsbD_append]
  rw [if_pos (by omega), if_pos (by omega), if_pos (by omega)]
  simp [BitVec.getLsbD_eq_getElem hi]

theorem nnField_append (a b : Nibble) (nn : Byte) : nnField (a ++ (b ++ nn) : Word) = nn := by
  unfold nnField
  ext i hi
  simp only [BitVec.getElem_extractLsb', BitVec.getLsbD_append]
  rw [if_pos (by omega), if_pos (by omega)]
  simp [BitVec.getLsbD_eq_getElem hi]

theorem nnnField_append (a : Nibble) (nnn : Imm12) : nnnField (a ++ nnn : Word) = nnn := by
  unfold nnnField
  ext i hi
  simp only [BitVec.getElem_extractLsb', BitVec.getLsbD_append]
  rw [if_pos (by omega)]
  simp [BitVec.getLsbD_eq_getElem hi]

theorem opField_append (a : Nibble) (nnn : Imm12) : opField (a ++ nnn : Word) = a := by
  unfold opField
  ext i hi
  simp only [BitVec.getElem_extractLsb', BitVec.getLsbD_append]
  rw [if_neg (by omega)]
  simp [BitVec.getLsbD_eq_getElem hi]

theorem xField_append (a b : Nibble) (nn : Byte) : xField (a ++ (b ++ nn) : Word) = b.toFin := by
  unfold xField
  congr 1
  ext i hi
  simp only [BitVec.getElem_extractLsb', BitVec.getLsbD_append]
  rw [if_pos (by omega), if_neg (by omega)]
  rw [show 8 + i - 8 = i by omega]
  simp [BitVec.getLsbD_eq_getElem hi]

/-! ### The formats -/

@[simp] theorem opField_formatA (op : Nibble) (nnn : Imm12) : opField (formatA op nnn) = op := opField_append op nnn
@[simp] theorem nnnField_formatA (op : Nibble) (nnn : Imm12) : nnnField (formatA op nnn) = nnn := nnnField_append op nnn

@[simp] theorem opField_formatI (op : Nibble) (x : Reg) (nn : Byte) : opField (formatI op x nn) = op := opField_append _ _
@[simp] theorem xField_formatI (op : Nibble) (x : Reg) (nn : Byte) : xField (formatI op x nn) = x := xField_append _ _ _
@[simp] theorem nnField_formatI (op : Nibble) (x : Reg) (nn : Byte) : nnField (formatI op x nn) = nn := nnField_append _ _ _

@[simp] theorem opField_formatX (op : Nibble) (x : Reg) (f : Byte) : opField (formatX op x f) = op := opField_append _ _
@[simp] theorem xField_formatX (op : Nibble) (x : Reg) (f : Byte) : xField (formatX op x f) = x := xField_append _ _ _
@[simp] theorem nnField_formatX (op : Nibble) (x : Reg) (f : Byte) : nnField (formatX op x f) = f := nnField_append _ _ _

@[simp] theorem opField_formatR (op : Nibble) (x y : Reg) (n : Nibble) : opField (formatR op x y n) = op := nibbles_op _ _ _ _
@[simp] theorem xField_formatR (op : Nibble) (x y : Reg) (n : Nibble) : xField (formatR op x y n) = x := nibbles_x _ _ _ _
@[simp] theorem yField_formatR (op : Nibble) (x y : Reg) (n : Nibble) : yField (formatR op x y n) = y := nibbles_y _ _ _ _
@[simp] theorem nField_formatR (op : Nibble) (x y : Reg) (n : Nibble) : nField (formatR op x y n) = n := nibbles_n _ _ _ _

/-! ### A word is its fields -/

theorem word_eq_op_nnn (w : Word) : w = formatA (opField w) (nnnField w) := by
  show w = w.extractLsb' 12 4 ++ w.extractLsb' 0 12
  apply BitVec.eq_of_getLsbD_eq
  intro i hi
  simp only [BitVec.getLsbD_append, BitVec.getLsbD_extractLsb']
  split
  · simp [*]
  · rw [show 12 + (i - 12) = i by omega]
    simp [show i - 12 < 4 by omega]

theorem word_eq_op_x_nn (w : Word) : w = formatI (opField w) (xField w) (nnField w) := by
  show w = w.extractLsb' 12 4 ++ (w.extractLsb' 8 4 ++ w.extractLsb' 0 8)
  apply BitVec.eq_of_getLsbD_eq
  intro i hi
  simp only [BitVec.getLsbD_append, BitVec.getLsbD_extractLsb']
  split
  · split
    · simp [*]
    · rw [show 8 + (i - 8) = i by omega]
      simp [show i - 8 < 4 by omega]
  · rw [show 12 + (i - (4 + 8)) = i by omega]
    simp [show i - (4 + 8) < 4 by omega]

theorem word_eq_op_x_y_n (w : Word) : w = formatR (opField w) (xField w) (yField w) (nField w) := by
  show w = w.extractLsb' 12 4 ++ (w.extractLsb' 8 4 ++ (w.extractLsb' 4 4 ++ w.extractLsb' 0 4))
  apply BitVec.eq_of_getLsbD_eq
  intro i hi
  simp only [BitVec.getLsbD_append, BitVec.getLsbD_extractLsb']
  split
  · split
    · split
      · simp [*]
      · rw [show 4 + (i - 4) = i by omega]
        simp [show i - 4 < 4 by omega]
    · rw [show 8 + (i - (4 + 4)) = i by omega]
      simp [show i - (4 + 4) < 4 by omega]
  · rw [show 12 + (i - (4 + (4 + 4))) = i by omega]
    simp [show i - (4 + (4 + 4)) < 4 by omega]

/-- The two bytes of a word, high byte first, give the word back (R44, R71). -/
@[simp] theorem wordOfBytes_high_low (w : Word) : wordOfBytes (highByte w) (lowByte w) = w := by
  show w.extractLsb' 8 8 ++ w.extractLsb' 0 8 = w
  apply BitVec.eq_of_getLsbD_eq
  intro i hi
  simp only [BitVec.getLsbD_append, BitVec.getLsbD_extractLsb']
  split
  · simp [*]
  · rw [show 8 + (i - 8) = i by omega]
    simp [show i - 8 < 8 by omega]

/-! ### Fixed bits of the formats -/

/-- A field kept or cleared by a mask nibble by nibble. -/
theorem formatA_mask (op : Nibble) (nnn : Imm12) : formatA op nnn &&& 0xF000#16 = op ++ 0#12 := by
  show (op ++ nnn) &&& (0xF#4 ++ 0#12) = op ++ 0#12
  rw [BitVec.and_append, BitVec.and_zero, show 0xF#4 = BitVec.allOnes 4 from rfl, BitVec.and_allOnes]

theorem formatI_mask (op : Nibble) (x : Reg) (nn : Byte) : formatI op x nn &&& 0xF000#16 = op ++ 0#12 :=
  formatA_mask op (regBits x ++ nn)

theorem formatX_mask (op : Nibble) (x : Reg) (f : Byte) : formatX op x f &&& 0xF0FF#16 = op ++ (0#4 ++ f) := by
  show (op ++ (regBits x ++ f)) &&& (0xF#4 ++ (0#4 ++ 0xFF#8)) = op ++ (0#4 ++ f)
  rw [BitVec.and_append, BitVec.and_append, BitVec.and_zero, show 0xF#4 = BitVec.allOnes 4 from rfl,
    show 0xFF#8 = BitVec.allOnes 8 from rfl, BitVec.and_allOnes, BitVec.and_allOnes]

theorem formatR_mask (op : Nibble) (x y : Reg) (n : Nibble) :
    formatR op x y n &&& 0xF00F#16 = op ++ (0#4 ++ (0#4 ++ n)) := by
  show (op ++ (regBits x ++ (regBits y ++ n))) &&& (0xF#4 ++ (0#4 ++ (0#4 ++ 0xF#4))) = op ++ (0#4 ++ (0#4 ++ n))
  rw [BitVec.and_append, BitVec.and_append, BitVec.and_append, BitVec.and_zero, BitVec.and_zero,
    show 0xF#4 = BitVec.allOnes 4 from rfl, BitVec.and_allOnes, BitVec.and_allOnes]

theorem formatD_mask (op : Nibble) (x y : Reg) (n : Nibble) : formatR op x y n &&& 0xF000#16 = op ++ 0#12 :=
  formatA_mask op (regBits x ++ (regBits y ++ n))

/-! ### The decode procedure, nibble by nibble (R64) -/

section
variable (ext : Bool) (w : Word)

theorem decodeWord_op0 (h : opField w = 0x0#4) :
    decodeWord ext w = decode0 w := by
  unfold decodeWord
  rw [h]
  rfl

theorem decodeWord_op1 (h : opField w = 0x1#4) :
    decodeWord ext w = .ok (.jp (nnnField w)) := by
  unfold decodeWord
  rw [h]
  rfl

theorem decodeWord_op2 (h : opField w = 0x2#4) :
    decodeWord ext w = .ok (.call (nnnField w)) := by
  unfold decodeWord
  rw [h]
  rfl

theorem decodeWord_op3 (h : opField w = 0x3#4) :
    decodeWord ext w = .ok (.seImm (xField w) (nnField w)) := by
  unfold decodeWord
  rw [h]
  rfl

theorem decodeWord_op4 (h : opField w = 0x4#4) :
    decodeWord ext w = .ok (.sneImm (xField w) (nnField w)) := by
  unfold decodeWord
  rw [h]
  rfl

theorem decodeWord_op5 (h : opField w = 0x5#4) :
    decodeWord ext w = if nField w = 0#4 then .ok (.seReg (xField w) (yField w)) else .error (.invalidOpcode w) := by
  unfold decodeWord
  rw [h]
  rfl

theorem decodeWord_op6 (h : opField w = 0x6#4) :
    decodeWord ext w = .ok (.ldImm (xField w) (nnField w)) := by
  unfold decodeWord
  rw [h]
  rfl

theorem decodeWord_op7 (h : opField w = 0x7#4) :
    decodeWord ext w = .ok (.addImm (xField w) (nnField w)) := by
  unfold decodeWord
  rw [h]
  rfl

theorem decodeWord_op8 (h : opField w = 0x8#4) :
    decodeWord ext w = decode8 w := by
  unfold decodeWord
  rw [h]
  rfl

theorem decodeWord_op9 (h : opField w = 0x9#4) :
    decodeWord ext w = if nField w = 0#4 then .ok (.sneReg (xField w) (yField w)) else .error (.invalidOpcode w) := by
  unfold decodeWord
  rw [h]
  rfl

theorem decodeWord_opA (h : opField w = 0xA#4) :
    decodeWord ext w = .ok (.ldI (nnnField w)) := by
  unfold decodeWord
  rw [h]
  rfl

theorem decodeWord_opB (h : opField w = 0xB#4) :
    decodeWord ext w = if ext then .ok (.jpV0 (nnnField w)) else .error (.invalidOpcode w) := by
  unfold decodeWord
  rw [h]
  rfl

theorem decodeWord_opC (h : opField w = 0xC#4) :
    decodeWord ext w = .ok (.rnd (xField w) (nnField w)) := by
  unfold decodeWord
  rw [h]
  rfl

theorem decodeWord_opD (h : opField w = 0xD#4) :
    decodeWord ext w = .ok (.drw (xField w) (yField w) (nField w)) := by
  unfold decodeWord
  rw [h]
  rfl

theorem decodeWord_opE (h : opField w = 0xE#4) :
    decodeWord ext w = decodeE w := by
  unfold decodeWord
  rw [h]
  rfl

theorem decodeWord_opF (h : opField w = 0xF#4) :
    decodeWord ext w = decodeF w := by
  unfold decodeWord
  rw [h]
  rfl

theorem decode8_0 (h : nField w = 0x0#4) : decode8 w = .ok (.ldReg (xField w) (yField w)) := by
  unfold decode8
  rw [h]
  rfl

theorem decode8_1 (h : nField w = 0x1#4) : decode8 w = .ok (.orReg (xField w) (yField w)) := by
  unfold decode8
  rw [h]
  rfl

theorem decode8_2 (h : nField w = 0x2#4) : decode8 w = .ok (.andReg (xField w) (yField w)) := by
  unfold decode8
  rw [h]
  rfl

theorem decode8_3 (h : nField w = 0x3#4) : decode8 w = .ok (.xorReg (xField w) (yField w)) := by
  unfold decode8
  rw [h]
  rfl

theorem decode8_4 (h : nField w = 0x4#4) : decode8 w = .ok (.addReg (xField w) (yField w)) := by
  unfold decode8
  rw [h]
  rfl

theorem decode8_5 (h : nField w = 0x5#4) : decode8 w = .ok (.sub (xField w) (yField w)) := by
  unfold decode8
  rw [h]
  rfl

theorem decode8_6 (h : nField w = 0x6#4) : decode8 w = .ok (.shr (xField w) (yField w)) := by
  unfold decode8
  rw [h]
  rfl

theorem decode8_7 (h : nField w = 0x7#4) : decode8 w = .ok (.subn (xField w) (yField w)) := by
  unfold decode8
  rw [h]
  rfl

theorem decode8_E (h : nField w = 0xE#4) : decode8 w = .ok (.shl (xField w) (yField w)) := by
  unfold decode8
  rw [h]
  rfl

theorem decodeE_9E (h : nnField w = 0x9E#8) : decodeE w = .ok (.skp (xField w)) := by
  unfold decodeE
  rw [h]
  rfl

theorem decodeE_A1 (h : nnField w = 0xA1#8) : decodeE w = .ok (.sknp (xField w)) := by
  unfold decodeE
  rw [h]
  rfl

theorem decodeF_07 (h : nnField w = 0x07#8) : decodeF w = .ok (.ldFromDt (xField w)) := by
  unfold decodeF
  rw [h]
  rfl

theorem decodeF_0A (h : nnField w = 0x0A#8) : decodeF w = .ok (.ldKey (xField w)) := by
  unfold decodeF
  rw [h]
  rfl

theorem decodeF_15 (h : nnField w = 0x15#8) : decodeF w = .ok (.ldDt (xField w)) := by
  unfold decodeF
  rw [h]
  rfl

theorem decodeF_18 (h : nnField w = 0x18#8) : decodeF w = .ok (.ldSt (xField w)) := by
  unfold decodeF
  rw [h]
  rfl

theorem decodeF_1E (h : nnField w = 0x1E#8) : decodeF w = .ok (.addI (xField w)) := by
  unfold decodeF
  rw [h]
  rfl

theorem decodeF_29 (h : nnField w = 0x29#8) : decodeF w = .ok (.ldF (xField w)) := by
  unfold decodeF
  rw [h]
  rfl

theorem decodeF_33 (h : nnField w = 0x33#8) : decodeF w = .ok (.ldB (xField w)) := by
  unfold decodeF
  rw [h]
  rfl

theorem decodeF_55 (h : nnField w = 0x55#8) : decodeF w = .ok (.storeRegs (xField w)) := by
  unfold decodeF
  rw [h]
  rfl

theorem decodeF_65 (h : nnField w = 0x65#8) : decodeF w = .ok (.loadRegs (xField w)) := by
  unfold decodeF
  rw [h]
  rfl

end

/-- The decoder on the two bytes of a word. -/
theorem decode_cons (ext : Bool) (hi lo : Byte) (rest : List Byte) :
    decode ext (hi :: lo :: rest) = (decodeWord ext (wordOfBytes hi lo)).map (fun i => (i, rest)) := by
  simp only [decode]
  cases decodeWord ext (wordOfBytes hi lo) <;> rfl

/-- The sixteen values of the nibble `op`. -/
theorem op_cases (o : Nibble) : o = 0 ∨ o = 1 ∨ o = 2 ∨ o = 3 ∨ o = 4 ∨ o = 5 ∨ o = 6 ∨ o = 7 ∨
    o = 8 ∨ o = 9 ∨ o = 10 ∨ o = 11 ∨ o = 12 ∨ o = 13 ∨ o = 14 ∨ o = 15 := by
  revert o; decide

/-- The decoder rejects a word by that word (R67). -/
theorem decodeWord_error (ext : Bool) (w : Word) (e : Reject) (h : decodeWord ext w = .error e) : e = .invalidOpcode w := by
  rcases op_cases (opField w) with ho|ho|ho|ho|ho|ho|ho|ho|ho|ho|ho|ho|ho|ho|ho|ho
  · rw [decodeWord_op0 _ _ ho] at h
    unfold decode0 at h
    split at h
    · cases h
    · split at h <;> cases h; rfl
  · rw [decodeWord_op1 _ _ ho] at h; cases h
  · rw [decodeWord_op2 _ _ ho] at h; cases h
  · rw [decodeWord_op3 _ _ ho] at h; cases h
  · rw [decodeWord_op4 _ _ ho] at h; cases h
  · rw [decodeWord_op5 _ _ ho] at h; split at h <;> cases h; rfl
  · rw [decodeWord_op6 _ _ ho] at h; cases h
  · rw [decodeWord_op7 _ _ ho] at h; cases h
  · rw [decodeWord_op8 _ _ ho] at h
    unfold decode8 at h
    split at h <;> cases h; rfl
  · rw [decodeWord_op9 _ _ ho] at h; split at h <;> cases h; rfl
  · rw [decodeWord_opA _ _ ho] at h; cases h
  · rw [decodeWord_opB _ _ ho] at h; split at h <;> cases h; rfl
  · rw [decodeWord_opC _ _ ho] at h; cases h
  · rw [decodeWord_opD _ _ ho] at h; cases h
  · rw [decodeWord_opE _ _ ho] at h
    unfold decodeE at h
    split at h <;> cases h; rfl
  · rw [decodeWord_opF _ _ ho] at h
    unfold decodeF at h
    split at h <;> cases h; rfl

end Sys2Proof
end

