-- ==== Sys2Proof/Laws/Draw.lean ====
section
/-! SUPPORT. The display and the sprite draw (44_display.md R160, R162): pixels after a write, a row, and a sprite. -/

namespace Sys2Proof.Machine

open Sys2Proof

/-- Two displays with the same pixels are the same display. -/
theorem Framebuffer.ext_pixel (fb gb : Framebuffer) (h : ∀ r c, fb.pixel r c = gb.pixel r c) : fb = gb := by
  apply Vector.ext
  intro r hr
  apply Vector.ext
  intro c hc
  have := h ⟨r, hr⟩ ⟨c, hc⟩
  simpa [Framebuffer.pixel, Vector.get_eq_getElem] using this

@[simp] theorem Framebuffer.pixel_clear (r : Fin 32) (c : Fin 64) : Framebuffer.clear.pixel r c = false := by
  simp [Framebuffer.pixel, Framebuffer.clear, Vector.get_eq_getElem]

theorem Framebuffer.pixel_setPixel (fb : Framebuffer) (r q : Fin 32) (c d : Fin 64) (b : Bool) :
    (fb.setPixel r c b).pixel q d = if q = r ∧ d = c then b else fb.pixel q d := by
  simp only [Framebuffer.pixel, Framebuffer.setPixel, Vector.get_eq_getElem, Vector.getElem_set]
  by_cases hq : r.val = q.val
  · simp only [if_pos hq, Vector.getElem_set]
    have hq' : q = r := Fin.ext hq.symm
    subst hq'
    by_cases hd : c.val = d.val
    · have hd' : d = c := Fin.ext hd.symm
      simp [hd']
    · have hd' : ¬ d = c := fun h => hd (by rw [h])
      simp [hd, hd']
  · have hq' : ¬ q = r := fun h => hq (by rw [h])
    simp [hq, hq']

/-- Toggled where `T` holds and unchanged elsewhere. -/
def Framebuffer.toggledAt (fb gb : Framebuffer) (T : Fin 32 → Fin 64 → Prop) : Prop :=
  ∀ q c, (T q c → gb.pixel q c = !fb.pixel q c) ∧ (¬ T q c → gb.pixel q c = fb.pixel q c)

/-- One sprite bit: its pixel is toggled, and hit if it was on. -/
theorem drawBit_spec (r : Fin 32) (x0 b : Byte) (d : Drawn) (col : Nat) :
    d.1.toggledAt (drawBit r x0 b d col).1 (fun q c => spriteBit b col = true ∧ q = r ∧ c = pixelCol x0 col) ∧
    ((drawBit r x0 b d col).2 = true ↔ (d.2 = true ∨ spriteBit b col = true ∧ d.1.pixel r (pixelCol x0 col) = true)) := by
  unfold drawBit Framebuffer.toggledAt
  by_cases hb : spriteBit b col = true
  · simp only [hb, if_true, true_and]
    refine ⟨fun q c => ?_, by simp⟩
    rw [Framebuffer.pixel_setPixel]
    constructor
    · rintro ⟨rfl, rfl⟩
      simp
    · intro h
      rw [if_neg h]
  · simp [hb]

/-- Toggling at `T` and then, elsewhere, at `U` toggles at either. -/
theorem Framebuffer.toggledAt_trans {fb gb kb : Framebuffer} {T U W : Fin 32 → Fin 64 → Prop}
    (h1 : fb.toggledAt gb T) (h2 : gb.toggledAt kb U) (hd : ∀ q c, T q c → ¬ U q c)
    (hw : ∀ q c, W q c ↔ T q c ∨ U q c) : fb.toggledAt kb W := by
  intro q c
  rw [hw]
  constructor
  · rintro (h | h)
    · rw [(h2 q c).2 (hd q c h), (h1 q c).1 h]
    · rw [(h2 q c).1 h, (h1 q c).2 (fun ht => hd q c ht h)]
  · intro h
    rw [not_or] at h
    rw [(h2 q c).2 h.2, (h1 q c).2 h.1]

/-- Several sprite bits of one row, at distinct columns. -/
theorem drawBits_spec (r : Fin 32) (x0 b : Byte) (cols : List Nat) : ∀ (d : Drawn),
    (cols.Pairwise (fun i j => pixelCol x0 i ≠ pixelCol x0 j)) →
    d.1.toggledAt (cols.foldl (drawBit r x0 b) d).1
      (fun q c => q = r ∧ ∃ col ∈ cols, spriteBit b col = true ∧ c = pixelCol x0 col) ∧
    ((cols.foldl (drawBit r x0 b) d).2 = true ↔
      (d.2 = true ∨ ∃ col ∈ cols, spriteBit b col = true ∧ d.1.pixel r (pixelCol x0 col) = true)) := by
  induction cols with
  | nil => intro d _; simp [Framebuffer.toggledAt]
  | cons i cols ih =>
    intro d hp
    obtain ⟨hi, hp⟩ := List.pairwise_cons.mp hp
    obtain ⟨h1, h2⟩ := ih (drawBit r x0 b d i) hp
    obtain ⟨g1, g2⟩ := drawBit_spec r x0 b d i
    refine ⟨?_, ?_⟩
    · refine Framebuffer.toggledAt_trans g1 h1 ?_ ?_
      · rintro q c ⟨_, _, rfl⟩ ⟨_, col, hm, _, he⟩
        exact hi col hm he
      · intro q c
        simp only [List.mem_cons, exists_eq_or_imp]
        tauto
    · rw [List.foldl_cons, h2, g2]
      have hpix : ∀ col ∈ cols, (drawBit r x0 b d i).1.pixel r (pixelCol x0 col) = d.1.pixel r (pixelCol x0 col) :=
        fun col hm => (g1 _ _).2 (fun h => hi col hm h.2.2.symm)
      constructor
      · rintro ((h | ⟨hb, hpx⟩) | ⟨col, hm, hb, hpx⟩)
        · exact .inl h
        · exact .inr ⟨i, by simp, hb, hpx⟩
        · exact .inr ⟨col, by simp [hm], hb, by rw [← hpix col hm]; exact hpx⟩
      · rintro (h | ⟨col, hm, hb, hpx⟩)
        · exact .inl (.inl h)
        · rcases List.mem_cons.mp hm with rfl | hm
          · exact .inl (.inr ⟨hb, hpx⟩)
          · exact .inr ⟨col, hm, hb, by rw [hpix col hm]; exact hpx⟩

theorem pixelCol_eq_iff (x0 : Byte) (i j : Nat) (hi : i < 64) (hj : j < 64) :
    pixelCol x0 i = pixelCol x0 j ↔ i = j := by
  simp only [pixelCol, Fin.mk.injEq]
  omega

theorem pixelRow_eq_iff (y0 : Byte) (i j : Nat) (h : i ≤ j) (hd : j - i < 32) :
    pixelRow y0 i = pixelRow y0 j ↔ i = j := by
  simp only [pixelRow, Fin.mk.injEq]
  omega

theorem mem_cols (col : Nat) : col ∈ [0, 1, 2, 3, 4, 5, 6, 7] ↔ col < 8 := by
  simp only [List.mem_cons, List.not_mem_nil, or_false]
  omega

/-- One sprite row (R162). -/
theorem drawRow_spec (r : Fin 32) (x0 b : Byte) (d : Drawn) :
    d.1.toggledAt (drawRow r x0 b d).1
      (fun q c => q = r ∧ ∃ col < 8, spriteBit b col = true ∧ c = pixelCol x0 col) ∧
    ((drawRow r x0 b d).2 = true ↔
      (d.2 = true ∨ ∃ col < 8, spriteBit b col = true ∧ d.1.pixel r (pixelCol x0 col) = true)) := by
  have hp : [0, 1, 2, 3, 4, 5, 6, 7].Pairwise (fun i j => pixelCol x0 i ≠ pixelCol x0 j) := by
    have : [0, 1, 2, 3, 4, 5, 6, 7].Pairwise (fun i j : Nat => i < j ∧ j < 64) := by decide
    exact this.imp (fun {i j} h => fun he => by have := (pixelCol_eq_iff x0 i j (by omega) h.2).mp he; omega)
  have h := drawBits_spec r x0 b [0, 1, 2, 3, 4, 5, 6, 7] d hp
  simp only [mem_cols] at h
  exact h

/-- The rows still to draw target pixel `(r, c)`. -/
def State.rowTargets (s : State) (x0 y0 : Byte) (lo hi : Nat) (r : Fin 32) (c : Fin 64) : Prop :=
  ∃ k, lo ≤ k ∧ k < hi ∧ ∃ col < 8, spriteBit (s.readByte (s.I.toNat + k)) col = true ∧
    r = pixelRow y0 k ∧ c = pixelCol x0 col

/-- A sprite whose rows all lie in memory: every targeted pixel is toggled, the flag says whether one was on, and nothing
else changes (R160). -/
theorem drawRows_ok (x0 y0 : Byte) : ∀ (left row : Nat) (hit : Bool) (s : State), left ≤ 32 →
    (left = 0 ∨ s.I.toNat + row + left ≤ 0x1000) →
    ∃ (fb : Framebuffer) (f : Bool), drawRows x0 y0 left row hit s = .next ({ s with FB := fb }.setV VF (flagByte f)) ∧
      s.FB.toggledAt fb (s.rowTargets x0 y0 row (row + left)) ∧
      (f = true ↔ hit = true ∨ ∃ r c, s.rowTargets x0 y0 row (row + left) r c ∧ s.FB.pixel r c = true) := by
  intro left
  induction left with
  | zero =>
    intro row hit s _ _
    have hno : ∀ r c, ¬ s.rowTargets x0 y0 row (row + 0) r c := by
      rintro r c ⟨k, h1, h2, _⟩
      omega
    refine ⟨s.FB, hit, rfl, fun r c => ⟨fun h => absurd h (hno r c), fun _ => rfl⟩, .inl, ?_⟩
    rintro (h | ⟨r, c, h, _⟩)
    · exact h
    · exact absurd h (hno r c)
  | succ left ih =>
    intro row hit s hl hm
    obtain ⟨g1, g2⟩ := drawRow_spec (pixelRow y0 row) x0 (s.readByte (s.I.toNat + row)) (s.FB, hit)
    generalize hd : drawRow (pixelRow y0 row) x0 (s.readByte (s.I.toNat + row)) (s.FB, hit) = d at g1 g2
    obtain ⟨fb, f, h0, h1, h2⟩ := ih (row + 1) d.2 { s with FB := d.1 }
      (by omega) (by right; show s.I.toNat + (row + 1) + left ≤ 0x1000; omega)
    -- the later rows' targets do not depend on the display this row left
    change d.1.toggledAt fb (s.rowTargets x0 y0 (row + 1) (row + 1 + left)) at h1
    change f = true ↔ d.2 = true ∨ ∃ r c, s.rowTargets x0 y0 (row + 1) (row + 1 + left) r c ∧ d.1.pixel r c = true at h2
    -- and no later row has a pixel of this row
    have hdisj : ∀ c, ¬ s.rowTargets x0 y0 (row + 1) (row + 1 + left) (pixelRow y0 row) c := by
      rintro c ⟨k, hk1, hk2, col, _, _, hr, _⟩
      have := (pixelRow_eq_iff y0 row k (by omega) (by omega)).mp hr
      omega
    have hsplit : ∀ r c, s.rowTargets x0 y0 row (row + (left + 1)) r c ↔
        (r = pixelRow y0 row ∧ ∃ col < 8, spriteBit (s.readByte (s.I.toNat + row)) col = true ∧ c = pixelCol x0 col) ∨
          s.rowTargets x0 y0 (row + 1) (row + 1 + left) r c := by
      intro r c
      constructor
      · rintro ⟨k, hk1, hk2, col, hc, hb, hr, hcc⟩
        by_cases hk : k = row
        · subst hk; exact .inl ⟨hr, col, hc, hb, hcc⟩
        · exact .inr ⟨k, by omega, by omega, col, hc, hb, hr, hcc⟩
      · rintro (⟨hr, col, hc, hb, hcc⟩ | ⟨k, hk1, hk2, rest⟩)
        · exact ⟨row, by omega, by omega, col, hc, hb, hr, hcc⟩
        · exact ⟨k, by omega, by omega, rest⟩
    refine ⟨fb, f, ?_, ?_, ?_⟩
    · rw [drawRows, State.memRead_ok s (s.ea row) (by simp only [State.ea]; omega)]
      show drawRows x0 y0 left (row + 1) (drawRow (pixelRow y0 row) x0 (s.readByte (s.I.toNat + row)) (s.FB, hit)).2
        { s with FB := (drawRow (pixelRow y0 row) x0 (s.readByte (s.I.toNat + row)) (s.FB, hit)).1 } = _
      rw [hd]
      exact h0
    · refine Framebuffer.toggledAt_trans g1 h1 ?_ hsplit
      rintro q c ⟨rfl, _⟩
      exact hdisj c
    · have hpix : ∀ r c, s.rowTargets x0 y0 (row + 1) (row + 1 + left) r c → d.1.pixel r c = s.FB.pixel r c :=
        fun r c ht => (g1 r c).2 (fun h => hdisj c (h.1 ▸ ht))
      rw [h2, g2]
      constructor
      · rintro ((h | ⟨col, hc, hb, hp⟩) | ⟨r, c, ht, hp⟩)
        · exact .inl h
        · exact .inr ⟨_, _, (hsplit _ _).mpr (.inl ⟨rfl, col, hc, hb, rfl⟩), hp⟩
        · exact .inr ⟨r, c, (hsplit _ _).mpr (.inr ht), by rw [← hpix r c ht]; exact hp⟩
      · rintro (h | ⟨r, c, ht, hp⟩)
        · exact .inl (.inl h)
        · rcases (hsplit r c).mp ht with ⟨rfl, col, hc, hb, rfl⟩ | ht
          · exact .inl (.inr ⟨col, hc, hb, hp⟩)
          · exact .inr ⟨r, c, ht, by rw [hpix r c ht]; exact hp⟩

/-- A draw whose row `row + j` lies outside memory: the rows before it are drawn, then the fault is raised (R47, R160). -/
theorem drawRows_fault (x0 y0 : Byte) : ∀ (j left row : Nat) (hit : Bool) (s : State), j < left → left ≤ 32 →
    (j = 0 ∨ s.I.toNat + row + j ≤ 0x1000) → 0xFFF < s.I.toNat + row + j →
    ∃ fb : Framebuffer, drawRows x0 y0 left row hit s = raise (.memoryOutOfRange (s.I.toNat + (row + j))) { s with FB := fb } ∧
      s.FB.toggledAt fb (s.rowTargets x0 y0 row (row + j)) := by
  intro j
  induction j with
  | zero =>
    intro left row hit s hl _ _ h
    obtain ⟨m, rfl⟩ : ∃ m, left = m + 1 := ⟨left - 1, by omega⟩
    refine ⟨s.FB, ?_, ?_⟩
    · rw [drawRows, State.memRead_error s (s.ea row) (by simp only [State.ea]; omega)]; rfl
    · intro r c
      exact ⟨fun ⟨k, h1, h2, _⟩ => by omega, fun _ => rfl⟩
  | succ j ih =>
    intro left row hit s hl hm h0 h
    obtain ⟨m, rfl⟩ : ∃ m, left = m + 1 := ⟨left - 1, by omega⟩
    obtain ⟨g1, _⟩ := drawRow_spec (pixelRow y0 row) x0 (s.readByte (s.I.toNat + row)) (s.FB, hit)
    generalize hd : drawRow (pixelRow y0 row) x0 (s.readByte (s.I.toNat + row)) (s.FB, hit) = d at g1
    obtain ⟨fb, h0', h1⟩ := ih m (row + 1) d.2 { s with FB := d.1 } (by omega) (by omega)
      (by right; show s.I.toNat + (row + 1) + j ≤ _; omega) (by show _ < s.I.toNat + (row + 1) + j; omega)
    change d.1.toggledAt fb (s.rowTargets x0 y0 (row + 1) (row + 1 + j)) at h1
    refine ⟨fb, ?_, ?_⟩
    · rw [drawRows, State.memRead_ok s (s.ea row) (by simp only [State.ea]; omega)]
      show drawRows x0 y0 m (row + 1) (drawRow (pixelRow y0 row) x0 (s.readByte (s.I.toNat + row)) (s.FB, hit)).2
        { s with FB := (drawRow (pixelRow y0 row) x0 (s.readByte (s.I.toNat + row)) (s.FB, hit)).1 } = _
      rw [hd, h0']
      show raise (.memoryOutOfRange (s.I.toNat + (row + 1 + j))) _ = _
      rw [show row + 1 + j = row + (j + 1) by omega]
    · refine Framebuffer.toggledAt_trans g1 h1 ?_ ?_
      · rintro q c ⟨rfl, _⟩ ⟨k, hk1, hk2, col, _, _, hr, _⟩
        have := (pixelRow_eq_iff y0 row k (by omega) (by omega)).mp hr
        omega
      · intro r c
        constructor
        · rintro ⟨k, hk1, hk2, col, hc, hb, hr, hcc⟩
          by_cases hk : k = row
          · subst hk; exact .inl ⟨hr, col, hc, hb, hcc⟩
          · exact .inr ⟨k, by omega, by omega, col, hc, hb, hr, hcc⟩
        · rintro (⟨hr, col, hc, hb, hcc⟩ | ⟨k, hk1, hk2, rest⟩)
          · exact ⟨row, by omega, by omega, col, hc, hb, hr, hcc⟩
          · exact ⟨k, by omega, by omega, rest⟩

/-- Everything a draw can do: it answers a next state that differs in the display and `VF`, or in the display and the two
fault fields. -/
theorem drawRows_next (x0 y0 : Byte) : ∀ (left row : Nat) (hit : Bool) (s : State),
    ∃ t, drawRows x0 y0 left row hit s = .next t ∧
      ((∃ f : Bool, t = { s with FB := t.FB }.setV VF (flagByte f)) ∨
        ∃ k, row ≤ k ∧ k < row + left ∧ 0xFFF < s.I.toNat + k ∧
          t = { s with FB := t.FB, HALTED := true, FAULT := some (.memoryOutOfRange (s.I.toNat + k)) }) := by
  intro left
  induction left with
  | zero => intro row hit s; exact ⟨_, rfl, .inl ⟨hit, rfl⟩⟩
  | succ left ih =>
    intro row hit s
    by_cases ha : s.I.toNat + row ≤ 0xFFF
    · obtain ⟨t, ht, hf⟩ := ih (row + 1)
        (drawRow (pixelRow y0 row) x0 (s.readByte (s.I.toNat + row)) (s.FB, hit)).2
        { s with FB := (drawRow (pixelRow y0 row) x0 (s.readByte (s.I.toNat + row)) (s.FB, hit)).1 }
      refine ⟨t, by rw [drawRows, State.memRead_ok s (s.ea row) ha]; exact ht, ?_⟩
      rcases hf with ⟨f, hf⟩ | ⟨k, h1, h2, h3, hf⟩
      · exact .inl ⟨f, hf⟩
      · exact .inr ⟨k, by omega, by omega, h3, hf⟩
    · refine ⟨{ s with HALTED := true, FAULT := some (.memoryOutOfRange (s.I.toNat + row)) }, ?_, .inr ⟨row, ?_⟩⟩
      · rw [drawRows, State.memRead_error s (s.ea row) (by simp only [State.ea]; omega)]; rfl
      · exact ⟨Nat.le_refl _, by omega, by omega, rfl⟩

/-- The pixels an `n`-row sprite targets are those of its rows from row 0 on. -/
theorem targets_iff (s : State) (x0 y0 : Byte) (n : Nat) (r c) : s.targets x0 y0 n r c ↔ s.rowTargets x0 y0 0 (0 + n) r c := by
  unfold State.targets State.rowTargets
  constructor
  · rintro ⟨k, hk, col, hc, hb, hr, hcc⟩
    exact ⟨k, by omega, by omega, col, hc, hb, Fin.ext hr, Fin.ext hcc⟩
  · rintro ⟨k, _, hk, col, hc, hb, rfl, rfl⟩
    exact ⟨k, by omega, col, hc, hb, rfl, rfl⟩

end Sys2Proof.Machine
end

