-- ==== Sys2Proof/Laws/Driver.lean ====
section
/-! SUPPORT. The frames of the timer's and the host's calls (60_exceptions.md R214, R217, R220), and the values of the shift
and flag helpers as numbers (42_register_ops.md R129, R130, R132). -/

namespace Sys2Proof.Machine

open Sys2Proof

/-- A timer counts down by 1 and stops at 0 (R214). -/
theorem countDown_toNat (t : Byte) : (countDown t).toNat = t.toNat - 1 := by
  revert t; decide

/-- `load`, whether it succeeds or not, changes memory and the display only (R220). -/
theorem State.afterLoad_frame (s : State) (bytes : List Byte) :
    s.afterLoad bytes = { s with MEM := (s.afterLoad bytes).MEM, FB := (s.afterLoad bytes).FB } := by
  unfold State.afterLoad State.load
  by_cases h : bytes.length > Config.romMax
  · simp [h]
  · simp only [h, if_false]
    rw [State.writeBytes_frame]

/-- `set_key` changes the keys only (R217). -/
theorem State.setKey_frame (s : State) (k : Nat) (p : Bool) : s.setKey k p = { s with KEY := (s.setKey k p).KEY } := by
  unfold State.setKey; split <;> rfl

/-- A flag is 0 or 1 (R132 g). -/
theorem flagByte_cases (b : Bool) : flagByte b = 0 ∨ flagByte b = 1 := by cases b <;> decide

theorem flagByte_shrOut : ∀ b : Byte, (flagByte (shrOut b)).toNat = b.toNat % 2 := by decide

theorem flagByte_shlOut : ∀ b : Byte, (flagByte (shlOut b)).toNat = b.toNat / 128 := by decide

theorem shrResult_toNat : ∀ b : Byte, (shrResult b).toNat = b.toNat / 2 := by decide

theorem shlResult_toNat (b : Byte) : (shlResult b).toNat = b.toNat * 2 % 256 := by simp [shlResult]

end Sys2Proof.Machine
end

