-- ==== Sys2Proof/Laws/Exec.lean ====
section
/-! SUPPORT. Everything each instruction that can take a fault can do, once, so that claims over all instructions split `exec`
and never unfold these six; every other arm of `exec` is one record update by definition. -/

namespace Sys2Proof.Machine

open Sys2Proof

/-- `RET` (R101, R203). -/
theorem execRet_cases (s t : State) (h : exec .ret s = .next t) :
    (s.SP.val = 0 ∧ t = { s with HALTED := true, FAULT := some .stackUnderflow }) ∨
    ∃ k : Fin 16, s.SP.val = k.val + 1 ∧
      t = { s with PC := s.STACK.get k, SP := ⟨k.val, Nat.lt_succ_of_lt k.isLt⟩ } := by
  by_cases h0 : s.SP.val = 0
  · simp only [exec, execRet, State.pop_empty s h0, raise, Host.Outcome.next.injEq] at h
    exact .inl ⟨h0, h.symm⟩
  · have hk : s.SP.val = (⟨s.SP.val - 1, by have := s.SP.isLt; omega⟩ : Fin 16).val + 1 := by simp only; omega
    simp only [exec, execRet, State.pop_ok s _ hk, State.jump, Host.Outcome.next.injEq] at h
    exact .inr ⟨_, hk, h.symm⟩

/-- `CALL nnn` (R103, R202). -/
theorem execCall_cases (nnn : Imm12) (s t : State) (h : exec (.call nnn) s = .next t) :
    (s.SP.val = 16 ∧ t = { s with HALTED := true, FAULT := some .stackOverflow }) ∨
    ∃ hk : s.SP.val < 16,
      t = { s with STACK := s.STACK.set s.SP.val s.PC hk, SP := ⟨s.SP.val + 1, Nat.succ_lt_succ hk⟩, PC := zext16 nnn } := by
  by_cases h0 : s.SP.val < 16
  · simp only [exec, execCall, State.push_ok s _ h0, State.jump, Host.Outcome.next.injEq] at h
    exact .inr ⟨h0, h.symm⟩
  · have h1 : s.SP.val = 16 := by have := s.SP.isLt; omega
    simp only [exec, execCall, State.push_full s _ h1, raise, Host.Outcome.next.injEq] at h
    exact .inl ⟨h1, h.symm⟩

/-- `LD B, Vx` (R143). -/
theorem execLdB_cases (x : Reg) (s t : State) (h : exec (.ldB x) s = .next t) :
    (t = { s with MEM := t.MEM } ∨
      ∃ k < 3, 0xFFF < s.I.toNat + k ∧ (k = 0 ∨ s.I.toNat + k ≤ 0x1000) ∧
        t = { s with MEM := t.MEM, HALTED := true, FAULT := some (.memoryOutOfRange (s.I.toNat + k)) }) ∧
    (Memory.wf s.cfg.font s.MEM → Memory.wf s.cfg.font t.MEM) := by
  obtain ⟨u, hu, hc, hw⟩ := storeBytes_next (bcdDigits (s.getV x)) (s.ea 0) s
  have : u = t := Host.Outcome.next.inj (hu.symm.trans h)
  subst this
  exact ⟨hc, hw⟩

/-- `LD [I], Vx` (R144). -/
theorem execStoreRegs_cases (x : Reg) (s t : State) (h : exec (.storeRegs x) s = .next t) :
    (t = { s with MEM := t.MEM } ∨
      ∃ k ≤ x.val, 0xFFF < s.I.toNat + k ∧ (k = 0 ∨ s.I.toNat + k ≤ 0x1000) ∧
        t = { s with MEM := t.MEM, HALTED := true, FAULT := some (.memoryOutOfRange (s.I.toNat + k)) }) ∧
    (Memory.wf s.cfg.font s.MEM → Memory.wf s.cfg.font t.MEM) := by
  obtain ⟨u, hu, hc, hw⟩ := storeBytes_next ((regsUpTo x).map s.getV) (s.ea 0) s
  have : u = t := Host.Outcome.next.inj (hu.symm.trans h)
  subst this
  refine ⟨hc.imp id ?_, hw⟩
  rintro ⟨k, hk, rest⟩
  rw [List.length_map, length_regsUpTo] at hk
  exact ⟨k, by omega, rest⟩

/-- `LD Vx, [I]` (R145). -/
theorem execLoadRegs_cases (x : Reg) (s t : State) (h : exec (.loadRegs x) s = .next t) :
    (t = { s with V := t.V } ∨
      ∃ k : Reg, k ≤ x ∧ 0xFFF < s.I.toNat + k.val ∧
        t = { s with V := t.V, HALTED := true, FAULT := some (.memoryOutOfRange (s.I.toNat + k.val)) }) ∧
    ∀ q, x < q → t.getV q = s.getV q := by
  obtain ⟨u, hu, hc, hq⟩ := loadFrom_next (s.ea 0) (regsUpTo x) s
  have : u = t := Host.Outcome.next.inj (hu.symm.trans h)
  subst this
  refine ⟨hc.imp id ?_, fun q hx => hq q (by rw [mem_regsUpTo]; exact not_le.mpr hx)⟩
  rintro ⟨k, hk, rest⟩
  exact ⟨k, (mem_regsUpTo x k).mp hk, rest⟩

/-- `DRW Vx, Vy, n` (R160). -/
theorem execDrw_cases (x y : Reg) (n : Nibble) (s t : State) (h : exec (.drw x y n) s = .next t) :
    (∃ f : Bool, t = { s with FB := t.FB }.setV VF (flagByte f)) ∨
      ∃ k < n.toNat, 0xFFF < s.I.toNat + k ∧
        t = { s with FB := t.FB, HALTED := true, FAULT := some (.memoryOutOfRange (s.I.toNat + k)) } := by
  obtain ⟨u, hu, hc⟩ := drawRows_next (s.getV x) (s.getV y) n.toNat 0 false s
  have : u = t := Host.Outcome.next.inj (hu.symm.trans h)
  subst this
  refine hc.imp id ?_
  rintro ⟨k, _, hk, rest⟩
  exact ⟨k, by omega, rest⟩

/-- Every instruction answers a next state (R226). -/
theorem exec_next (i : Instr) (s : State) : ∃ t, exec i s = .next t := by
  cases i
  case ret => simp only [exec, execRet]; cases s.pop <;> exact ⟨_, rfl⟩
  case call => simp only [exec, execCall]; cases s.push s.PC <;> exact ⟨_, rfl⟩
  case ldB => exact (storeBytes_next _ _ s).imp fun _ h => h.1
  case storeRegs => exact (storeBytes_next _ _ s).imp fun _ h => h.1
  case loadRegs => exact (loadFrom_next _ _ s).imp fun _ h => h.1
  case drw => exact (drawRows_next _ _ _ _ _ s).imp fun _ h => h.1
  all_goals exact ⟨_, rfl⟩

end Sys2Proof.Machine
end

