-- ==== Sys2Proof/Laws/PerInstr.lean ====
section
/-! SUPPORT. One lemma per instruction: its encoding has its row's fixed bits (R65, R71). -/

namespace Sys2Proof.Laws.RowBits

open Sys2Proof

/-- The word of `i` under its row's mask is its row's fixed bits. -/
def Statement (i : Instr) : Prop := encode i &&& i.rowMask = i.rowMatch

theorem cls : Statement .cls := rfl
theorem ret : Statement .ret := rfl
theorem jp (nnn : Imm12) : Statement (.jp nnn) := formatA_mask _ _
theorem call (nnn : Imm12) : Statement (.call nnn) := formatA_mask _ _
theorem seImm (x : Reg) (nn : Byte) : Statement (.seImm x nn) := formatI_mask _ _ _
theorem sneImm (x : Reg) (nn : Byte) : Statement (.sneImm x nn) := formatI_mask _ _ _
theorem seReg (x y : Reg) : Statement (.seReg x y) := formatR_mask _ _ _ _
theorem sneReg (x y : Reg) : Statement (.sneReg x y) := formatR_mask _ _ _ _
theorem skp (x : Reg) : Statement (.skp x) := formatX_mask _ _ _
theorem sknp (x : Reg) : Statement (.sknp x) := formatX_mask _ _ _
theorem ldImm (x : Reg) (nn : Byte) : Statement (.ldImm x nn) := formatI_mask _ _ _
theorem addImm (x : Reg) (nn : Byte) : Statement (.addImm x nn) := formatI_mask _ _ _
theorem ldReg (x y : Reg) : Statement (.ldReg x y) := formatR_mask _ _ _ _
theorem orReg (x y : Reg) : Statement (.orReg x y) := formatR_mask _ _ _ _
theorem andReg (x y : Reg) : Statement (.andReg x y) := formatR_mask _ _ _ _
theorem xorReg (x y : Reg) : Statement (.xorReg x y) := formatR_mask _ _ _ _
theorem addReg (x y : Reg) : Statement (.addReg x y) := formatR_mask _ _ _ _
theorem sub (x y : Reg) : Statement (.sub x y) := formatR_mask _ _ _ _
theorem subn (x y : Reg) : Statement (.subn x y) := formatR_mask _ _ _ _
theorem shr (x y : Reg) : Statement (.shr x y) := formatR_mask _ _ _ _
theorem shl (x y : Reg) : Statement (.shl x y) := formatR_mask _ _ _ _
theorem ldI (nnn : Imm12) : Statement (.ldI nnn) := formatA_mask _ _
theorem addI (x : Reg) : Statement (.addI x) := formatX_mask _ _ _
theorem ldF (x : Reg) : Statement (.ldF x) := formatX_mask _ _ _
theorem ldB (x : Reg) : Statement (.ldB x) := formatX_mask _ _ _
theorem storeRegs (x : Reg) : Statement (.storeRegs x) := formatX_mask _ _ _
theorem loadRegs (x : Reg) : Statement (.loadRegs x) := formatX_mask _ _ _
theorem drw (x y : Reg) (n : Nibble) : Statement (.drw x y n) := formatD_mask _ _ _ _
theorem ldFromDt (x : Reg) : Statement (.ldFromDt x) := formatX_mask _ _ _
theorem ldDt (x : Reg) : Statement (.ldDt x) := formatX_mask _ _ _
theorem ldSt (x : Reg) : Statement (.ldSt x) := formatX_mask _ _ _
theorem rnd (x : Reg) (nn : Byte) : Statement (.rnd x nn) := formatI_mask _ _ _
theorem ldKey (x : Reg) : Statement (.ldKey x) := formatX_mask _ _ _
theorem jpV0 (nnn : Imm12) : Statement (.jpV0 nnn) := formatA_mask _ _

end Sys2Proof.Laws.RowBits
end

