-- ==== Sys2Proof/Tests/Slice0.lean ====
section
/-! SUPPORT. The model's own tests. Expected values come from the spec: decodings from the bit patterns of 30_encoding.md R65,
results from the S, T and P vectors of 95_test_vectors.md (each test names its word), witnesses from the hypotheses of the
statements. A step runs one word placed at `PC`. -/

namespace Sys2Proof.Tests

open Sys2Proof Sys2Proof.Machine

/-! ### Helpers -/

/-- Does the step that runs `w` at `s.PC` answer a next state with property `p`? -/
def runs (s : State) (w : Nat) (p : State → Bool) : Bool :=
  match step (s.withFetchWord 16 w) with
  | .next t => p t
  | .fault _ => false
  | .refused _ => false

/-- Does this call answer a next state with property `p`? -/
def calls (c : Call) (s : State) (p : State → Bool) : Bool :=
  match perform c s with
  | .next t => p t
  | .fault _ => false
  | .refused _ => false

/-- The reset state with some registers set. -/
def regs (vs : List (Reg × Byte)) : State := vs.foldl (fun s p => s.setV p.1 p.2) State.reset

/-- The reset state with some bytes from an address on. -/
def mem (a : Nat) (bs : List Byte) : State := State.reset.writeBytes a bs

/-- A state whose shifts read `V[y]` (`SHIFT_SRC = VY`). -/
def State.shiftVy (s : State) : State := { s with cfg := { s.cfg with shiftSrc := .vy } }

/-- A halted state. -/
def haltedState : State := { State.reset with HALTED := true, FAULT := some .stackUnderflow, DT := 5 }

/-- A running state that is not waiting faulted as the vector says? -/
def faulted (t : State) (f : Fault) : Bool := t.HALTED && t.FAULT == some f

/-! ### Well-formedness (R110) -/

theorem test_illformed_jpV0 : Instr.wellFormed false (.jpV0 0x300) = false := by decide
theorem test_wellformed_jpV0 : Instr.wellFormed true (.jpV0 0x300) = true := by decide
theorem test_illformed_word_is_refused : decodeWord false 0xB300 = .error (.invalidOpcode 0xB300) := by decide

/-! ### Decoding: one word of every row of R65, in its nibbles -/

theorem test_decode_cls : decodeWord false 0b0000_0000_1110_0000 = .ok .cls := by decide
theorem test_decode_ret : decodeWord false 0b0000_0000_1110_1110 = .ok .ret := by decide
theorem test_decode_jp : decodeWord false 0b0001_0010_0000_0000 = .ok (.jp 0x200) := by decide
theorem test_decode_call : decodeWord false 0b0010_1010_1011_1100 = .ok (.call 0xABC) := by decide
theorem test_decode_seImm : decodeWord false 0b0011_1010_0100_0010 = .ok (.seImm 10 0x42) := by decide
theorem test_decode_sneImm : decodeWord false 0b0100_1010_0100_0010 = .ok (.sneImm 10 0x42) := by decide
theorem test_decode_seReg : decodeWord false 0b0101_0001_0010_0000 = .ok (.seReg 1 2) := by decide
theorem test_decode_sneReg : decodeWord false 0b1001_0001_0010_0000 = .ok (.sneReg 1 2) := by decide
theorem test_decode_skp : decodeWord false 0b1110_0100_1001_1110 = .ok (.skp 4) := by decide
theorem test_decode_sknp : decodeWord false 0b1110_0100_1010_0001 = .ok (.sknp 4) := by decide
theorem test_decode_ldImm : decodeWord false 0b0110_0001_0000_1010 = .ok (.ldImm 1 0x0A) := by decide
theorem test_decode_addImm : decodeWord false 0b0111_1111_0000_0001 = .ok (.addImm 15 0x01) := by decide
theorem test_decode_ldReg : decodeWord false 0b1000_0001_0010_0000 = .ok (.ldReg 1 2) := by decide
theorem test_decode_orReg : decodeWord false 0b1000_0001_0010_0001 = .ok (.orReg 1 2) := by decide
theorem test_decode_andReg : decodeWord false 0b1000_0001_0010_0010 = .ok (.andReg 1 2) := by decide
theorem test_decode_xorReg : decodeWord false 0b1000_0001_0010_0011 = .ok (.xorReg 1 2) := by decide
theorem test_decode_addReg : decodeWord false 0b1000_0000_0001_0100 = .ok (.addReg 0 1) := by decide
theorem test_decode_sub : decodeWord false 0b1000_0001_0010_0101 = .ok (.sub 1 2) := by decide
theorem test_decode_subn : decodeWord false 0b1000_0001_0010_0111 = .ok (.subn 1 2) := by decide
theorem test_decode_shr : decodeWord false 0b1000_0001_0010_0110 = .ok (.shr 1 2) := by decide
theorem test_decode_shl : decodeWord false 0b1000_0001_0010_1110 = .ok (.shl 1 2) := by decide
theorem test_decode_ldI : decodeWord false 0b1010_0011_0000_0000 = .ok (.ldI 0x300) := by decide
theorem test_decode_addI : decodeWord false 0b1111_0010_0001_1110 = .ok (.addI 2) := by decide
theorem test_decode_ldF : decodeWord false 0b1111_0010_0010_1001 = .ok (.ldF 2) := by decide
theorem test_decode_ldB : decodeWord false 0b1111_0010_0011_0011 = .ok (.ldB 2) := by decide
theorem test_decode_storeRegs : decodeWord false 0b1111_0010_0101_0101 = .ok (.storeRegs 2) := by decide
theorem test_decode_loadRegs : decodeWord false 0b1111_0010_0110_0101 = .ok (.loadRegs 2) := by decide
theorem test_decode_drw : decodeWord false 0b1101_0000_0001_0010 = .ok (.drw 0 1 2) := by decide
theorem test_decode_ldFromDt : decodeWord false 0b1111_0001_0000_0111 = .ok (.ldFromDt 1) := by decide
theorem test_decode_ldDt : decodeWord false 0b1111_0010_0001_0101 = .ok (.ldDt 2) := by decide
theorem test_decode_ldSt : decodeWord false 0b1111_0010_0001_1000 = .ok (.ldSt 2) := by decide
theorem test_decode_rnd : decodeWord false 0b1100_0011_0000_1111 = .ok (.rnd 3 0x0F) := by decide
theorem test_decode_ldKey : decodeWord false 0b1111_0101_0000_1010 = .ok (.ldKey 5) := by decide
theorem test_decode_jpV0 : decodeWord true 0b1011_0011_0000_0000 = .ok (.jpV0 0x300) := by decide

/-- The high byte lies at the lower address (R44, R60). -/
theorem test_decode_byte_order : decode false [0x6A, 0x55, 0xFF] = .ok (.ldImm 10 0x55, [0xFF]) := by decide
theorem test_decode_one_byte_is_truncated : decode false [0x6A] = .error .truncated := by decide

/-- The words of T-decode that decode to nothing. -/
theorem test_invalid_words_0_to_5 : [0x0000#16, 0x00E1, 0x00FF, 0x0123, 0x5121, 0x500F].all
    (fun w => decodeWord false w == .error (.invalidOpcode w)) = true := by decide
theorem test_invalid_words_8_to_B : [0x8008#16, 0x800F, 0x8129, 0x9001, 0x912F, 0xB300].all
    (fun w => decodeWord false w == .error (.invalidOpcode w)) = true := by decide
theorem test_invalid_words_E_to_F : [0xE000#16, 0xE09F, 0xE1A0, 0xF000, 0xF01F, 0xF075, 0xF085, 0xF030, 0xFFFF].all
    (fun w => decodeWord false w == .error (.invalidOpcode w)) = true := by decide

/-! ### Control flow (T-control) -/

theorem test_cls : runs { State.reset with FB := Framebuffer.clear.setPixel 3 4 true } 0x00E0 (fun t =>
    t.FB == Framebuffer.clear && t.PC == 0x202) = true := by decide
theorem test_ret : runs { State.reset with SP := 2, STACK := (State.reset.STACK.set 0 0x300).set 1 0x456 } 0x00EE (fun t =>
    t.PC == 0x456 && t.SP == 1) = true := by decide
theorem test_ret_underflow : runs State.reset 0x00EE (fun t =>
    faulted t .stackUnderflow && t.PC == 0x202 && t.SP == 0) = true := by decide
theorem test_jp : runs State.reset 0x1ABC (fun t =>
    t.PC == 0xABC) = true := by decide
/-- S8 -/
theorem test_jp_self : runs State.reset 0x1200 (fun t =>
    t.PC == 0x200 && !t.HALTED) = true := by decide
theorem test_call : runs { State.reset with SP := 15 } 0x2ABC (fun t =>
    t.STACK.get 15 == 0x202 && t.SP == 16 && t.PC == 0xABC) = true := by decide
theorem test_call_overflow : runs { State.reset with SP := 16 } 0x2ABC (fun t =>
    faulted t .stackOverflow && t.PC == 0x202 && t.SP == 16 && t.STACK == State.reset.STACK) = true := by decide
theorem test_seImm : runs (regs [(10, 0x42)]) 0x3A42 (fun t =>
    t.PC == 0x204) = true := by decide
theorem test_seImm_at_the_top : runs { State.reset with PC := 0xFFE } 0x3000 (fun t =>
    t.PC == 0x1002 && !t.HALTED) = true := by decide
theorem test_sneImm : runs (regs [(10, 0x43)]) 0x4A42 (fun t =>
    t.PC == 0x204) = true := by decide
theorem test_sneImm_equal : runs (regs [(10, 0x42)]) 0x4A42 (fun t =>
    t.PC == 0x202) = true := by decide
theorem test_seReg : runs (regs [(1, 0x07), (2, 0x07)]) 0x5120 (fun t =>
    t.PC == 0x204) = true := by decide
theorem test_seReg_different : runs (regs [(1, 0x07), (2, 0x08)]) 0x5120 (fun t =>
    t.PC == 0x202) = true := by decide
theorem test_sneReg : runs (regs [(1, 0x07), (2, 0x08)]) 0x9120 (fun t =>
    t.PC == 0x204) = true := by decide
theorem test_sneReg_same : runs State.reset 0x9330 (fun t =>
    t.PC == 0x202) = true := by decide
theorem test_skp : runs { regs [(0, 0x1A)] with KEY := State.reset.KEY.set 10 true } 0xE09E (fun t =>
    t.PC == 0x204) = true := by decide
theorem test_skp_up : runs (regs [(0, 0x03)]) 0xE09E (fun t =>
    t.PC == 0x202) = true := by decide
theorem test_sknp : runs { regs [(0, 0x1A)] with KEY := State.reset.KEY.set 10 true } 0xE0A1 (fun t =>
    t.PC == 0x202) = true := by decide
theorem test_sknp_up : runs (regs [(0, 0x03)]) 0xE0A1 (fun t =>
    t.PC == 0x204) = true := by decide
theorem test_jpV0 : runs (regs [(0, 0x04)]) 0xB300 (fun t =>
    t.PC == 0x304) = true := by decide
theorem test_jpV0_past_memory : runs (regs [(0, 0xFF)]) 0xBFFF (fun t =>
    t.PC == 0x10FE && !t.HALTED) = true := by decide

/-! ### Register and ALU instructions (T-alu) -/

theorem test_ldImm : runs State.reset 0x6FAB (fun t =>
    t.getV VF == 0xAB && t.PC == 0x202) = true := by decide
theorem test_ldImm_odd_pc : runs { State.reset with PC := 0x201 } 0x6A55 (fun t =>
    t.getV 10 == 0x55 && t.PC == 0x203) = true := by decide
theorem test_addImm : runs (regs [(0, 0xFF), (15, 0x07)]) 0x7001 (fun t =>
    t.getV 0 == 0x00 && t.getV VF == 0x07) = true := by decide
theorem test_addImm_vf : runs (regs [(15, 0xFF)]) 0x7F01 (fun t =>
    t.getV VF == 0x00) = true := by decide
theorem test_ldReg : runs (regs [(2, 0x5A)]) 0x8120 (fun t =>
    t.getV 1 == 0x5A && t.getV 2 == 0x5A) = true := by decide
theorem test_orReg : runs (regs [(0, 0xF0), (1, 0x0F), (15, 0x07)]) 0x8011 (fun t =>
    t.getV 0 == 0xFF && t.getV VF == 0x07) = true := by decide
theorem test_andReg : runs (regs [(0, 0xF0), (1, 0x3C)]) 0x8012 (fun t =>
    t.getV 0 == 0x30 && t.getV 1 == 0x3C) = true := by decide
theorem test_xorReg : runs (regs [(0, 0xF0), (1, 0x3C)]) 0x8013 (fun t =>
    t.getV 0 == 0xCC && t.getV 1 == 0x3C) = true := by decide
theorem test_addReg : runs (regs [(0, 0xFF), (1, 0x01)]) 0x8014 (fun t =>
    t.getV 0 == 0x00 && t.getV VF == 0x01 && t.getV 1 == 0x01) = true := by decide
theorem test_addReg_into_vf : runs (regs [(15, 0x80)]) 0x8FF4 (fun t =>
    t.getV VF == 0x01) = true := by decide
theorem test_sub : runs (regs [(0, 0x10), (1, 0x20)]) 0x8015 (fun t =>
    t.getV 0 == 0xF0 && t.getV VF == 0x00) = true := by decide
theorem test_sub_into_vf : runs (regs [(15, 0x05), (0, 0x07)]) 0x8F05 (fun t =>
    t.getV VF == 0x00 && t.getV 0 == 0x07) = true := by decide
theorem test_subn : runs (regs [(0, 0x10), (1, 0x20)]) 0x8017 (fun t =>
    t.getV 0 == 0x10 && t.getV VF == 0x01) = true := by decide
theorem test_subn_borrow : runs (regs [(0, 0x20), (1, 0x10)]) 0x8017 (fun t =>
    t.getV 0 == 0xF0 && t.getV VF == 0x00) = true := by decide
theorem test_shr_vx : runs (regs [(0, 0x05), (1, 0x80)]) 0x8016 (fun t =>
    t.getV 0 == 0x02 && t.getV VF == 0x01) = true := by decide
theorem test_shr_vy : runs (State.shiftVy (regs [(15, 0x02), (1, 0xFF)])) 0x8F16 (fun t =>
    t.getV VF == 0x01) = true := by decide
theorem test_shl_vx : runs (regs [(0, 0x81), (1, 0x01)]) 0x801E (fun t =>
    t.getV 0 == 0x02 && t.getV VF == 0x01) = true := by decide
theorem test_shl_vy : runs (State.shiftVy (regs [(0, 0x81), (1, 0x01)])) 0x801E (fun t =>
    t.getV 0 == 0x02 && t.getV VF == 0x00 && t.getV 1 == 0x01) = true := by decide

/-! ### Index register and memory (T-index) -/

theorem test_ldI : runs State.reset 0xAFFF (fun t =>
    t.I == 0x0FFF) = true := by decide
theorem test_addI : runs { regs [(0, 0x01)] with I := 0x0FFF } 0xF01E (fun t =>
    t.I == 0x1000 && t.getV VF == 0 && !t.HALTED) = true := by decide
theorem test_addI_wraps : runs { regs [(0, 0xFF), (15, 0x09)] with I := 0xFF01 } 0xF01E (fun t =>
    t.I == 0 && t.getV VF == 0x09) = true := by decide
theorem test_ldF : runs (regs [(2, 0x07)]) 0xF229 (fun t =>
    t.I == 0x0023) = true := by decide
theorem test_ldF_low_nibble : runs (regs [(0, 0x1A)]) 0xF029 (fun t =>
    t.I == 0x0032) = true := by decide
theorem test_ldB : runs { regs [(0, 254)] with I := 0x300 } 0xF033 (fun t =>
    t.readByte 0x300 == 2 && t.readByte 0x301 == 5 && t.readByte 0x302 == 4 && t.I == 0x300) = true := by decide
theorem test_ldB_midway : runs { regs [(0, 123)] with I := 0xFFF } 0xF033 (fun t =>
    t.readByte 0xFFF == 1 && faulted t (.memoryOutOfRange 0x1000) && t.PC == 0x202) = true := by decide
theorem test_storeRegs : runs { regs [(0, 1), (1, 2), (2, 3), (3, 4)] with I := 0x400 } 0xF255 (fun t =>
    t.readByte 0x400 == 1 && t.readByte 0x402 == 3 && t.readByte 0x403 == 0 && t.I == 0x400) = true := by decide
theorem test_storeRegs_midway : runs { regs [(0, 0xA0), (7, 0xA7), (8, 0xA8)] with I := 0xFF8 } 0xFF55 (fun t =>
    t.readByte 0xFF8 == 0xA0 && t.readByte 0xFFF == 0xA7 && faulted t (.memoryOutOfRange 0x1000)) = true := by decide
theorem test_loadRegs : runs { mem 0x300 [2, 5, 4, 9] with I := 0x300 } 0xF265 (fun t =>
    t.getV 0 == 0x02 && t.getV 1 == 0x05 && t.getV 2 == 0x04 && t.getV 3 == 0x00 && t.I == 0x300) = true := by decide
theorem test_loadRegs_midway : runs { mem 0xFFE [0x11, 0x22] with I := 0xFFE } 0xF365 (fun t =>
    t.getV 0 == 0x11 && t.getV 1 == 0x22 && t.getV 2 == 0x00 && faulted t (.memoryOutOfRange 0x1000)) = true := by decide

/-! ### Display (T-draw, P4) -/

theorem test_drw_font : runs State.reset 0xD015 (fun t =>
    t.FB.pixel 0 3 && t.FB.pixel 4 0 && !t.FB.pixel 1 1 && !t.FB.pixel 0 4 && !t.FB.pixel 5 0 && t.getV VF == 0) = true := by decide
theorem test_drw_collision : runs { (mem 0x300 [0xC0]) with I := 0x300, FB := Framebuffer.clear.setPixel 0 1 true } 0xD011 (fun t =>
    t.FB.pixel 0 0 && !t.FB.pixel 0 1 && t.getV VF == 1) = true := by decide

/-! ### Timers, random byte, key-wait (T-timer, T-key, T-random, S4, S9) -/

theorem test_ldFromDt : runs { State.reset with DT := 0x3C } 0xF107 (fun t =>
    t.getV 1 == 0x3C && t.DT == 0x3C) = true := by decide
theorem test_ldDt : runs (regs [(0, 0x3C)]) 0xF015 (fun t =>
    t.DT == 0x3C && t.ST == 0) = true := by decide
theorem test_ldSt : runs (regs [(2, 0x05)]) 0xF218 (fun t =>
    t.ST == 5 && t.soundActive && t.DT == 0) = true := by decide
theorem test_ldSt_zero : runs { State.reset with ST := 9 } 0xF218 (fun t =>
    t.ST == 0 && !t.soundActive) = true := by decide
theorem test_rnd : runs { State.reset with rndIn := [0xA7, 0x01] } 0xC30F (fun t =>
    t.getV 3 == 0x07 && t.rndIn == [0x01]) = true := by decide
theorem test_rnd_mask_zero : runs { State.reset with rndIn := [0xA7] } 0xC300 (fun t =>
    t.getV 3 == 0x00) = true := by decide
theorem test_ldKey : runs State.reset 0xF50A (fun t =>
    t.PC == 0x200 && t.WAIT == some 5) = true := by decide
theorem test_ldKey_with_a_key_down : runs { State.reset with KEY := State.reset.KEY.set 3 true } 0xF50A (fun t =>
    t.PC == 0x200 && t.WAIT == some 5 && t.getV 5 == 0) = true := by decide

theorem test_wait_keeps_waiting : calls .tick { State.reset with WAIT := some 5 } (fun t =>
    t == { State.reset with WAIT := some 5 }) = true := by decide
theorem test_wait_takes_the_least_key : calls .tick
    { State.reset with WAIT := some 5, KEY := (State.reset.KEY.set 9 true).set 4 true } (fun t =>
    t.getV 5 == 4 && t.PC == 0x202 && t.WAIT == none) = true := by decide

/-! ### The other agents (T-timer, S6, P5 a) -/

theorem test_tickTimers : calls .tickTimers { State.reset with DT := 1, ST := 255 } (fun t =>
    t.DT == 0 && t.ST == 254) = true := by decide
theorem test_tickTimers_at_zero_and_halted : calls .tickTimers haltedState (fun t =>
    t.DT == 4 && t.ST == 0 && t.HALTED) = true := by decide
theorem test_setKey : calls (.setKey 15 true) State.reset (fun t => t.KEY.get 15 && !t.KEY.get 14) = true := by decide
theorem test_setKey_out_of_range : calls (.setKey 16 true) State.reset (fun t => t == State.reset) = true := by decide
theorem test_load : calls (.load [0x12, 0x00]) { State.reset with FB := Framebuffer.clear.setPixel 0 0 true } (fun t =>
    t.readByte 0x200 == 0x12 && t.readByte 0x201 == 0 && !t.FB.pixel 0 0) = true := by decide
theorem test_load_too_large : State.load State.reset (List.replicate 3585 0) = .error .romTooLarge := by
  rw [State.load, if_pos (by rw [List.length_replicate]; decide)]
theorem test_reset : calls .reset { haltedState with PC := 0x202, MEM := [(0x200, 0xEE)] } (fun t =>
    !t.HALTED && t.PC == 0x200 && t.readByte 0x200 == 0 && t.FAULT == none) = true := by decide
theorem test_halted_tick : calls .tick haltedState (fun t =>
    t == haltedState && t.tickReport == some .stackUnderflow) = true := by decide

/-! ### Fetch (T-control, P5 d, P6) -/

theorem test_fetch_at_the_top : calls .tick { State.reset with PC := 0xFFF } (fun t =>
    faulted t (.memoryOutOfRange 0x1000) && t.PC == 0xFFF) = true := by decide
theorem test_fetch_past_memory : calls .tick { State.reset with PC := 0x1002 } (fun t =>
    faulted t (.memoryOutOfRange 0x1002) && t.PC == 0x1002) = true := by decide
theorem test_empty_memory_is_invalid : calls .tick State.reset (fun t =>
    faulted t (.invalidOpcode 0x0000) && t.PC == 0x202) = true := by decide

/-! ### Witnesses: states and operands that meet the hypotheses of the statements, at the edges of their ranges -/

/-- A ready state at the last fetch address. -/
def topState (bs : List Byte) : State := { mem 0xFFE bs with PC := 0xFFE }

theorem witness_DecodeOfEncodeIsTheInstruction :
    Instr.wellFormed false (.drw 15 15 15) = true ∧ Instr.wellFormed true (.jpV0 0xFFF) = true := by decide
theorem witness_EncodeOfDecodeIsTheWord :
    decodeWord true 0xBFFF = .ok (.jpV0 0xFFF) ∧ decodeWord false 0xFF65 = .ok (.loadRegs 15) := by decide
theorem witness_DecodeFollowsTheMap : Instr.wellFormed false (.sneReg 15 15) = true ∧
    0x9FF0#16 &&& Instr.rowMask (.sneReg 15 15) = Instr.rowMatch (.sneReg 15 15) ∧
    0x9FF1#16 &&& Instr.rowMask (.sneReg 15 15) ≠ Instr.rowMatch (.sneReg 15 15) := by decide
theorem witness_InvalidWordsAreTheTablesWords : invalidWord false 0x0000 = true ∧ invalidWord false 0xFFFF = true ∧
    invalidWord false 0xBFFF = true ∧ invalidWord true 0xBFFF = false ∧ invalidWord false 0x00E0 = false := by decide
theorem witness_StepRunsTheDecodedInstruction : (topState [0x60, 0x01]).ready ∧ (topState [0x60, 0x01]).PC.toNat ≤ 0xFFE ∧
    decodeWord (topState [0x60, 0x01]).cfg.extJpV0 ((topState [0x60, 0x01]).readByte (topState [0x60, 0x01]).PC.toNat ++
      (topState [0x60, 0x01]).readByte ((topState [0x60, 0x01]).PC.toNat + 1)) = .ok (.ldImm 0 1) :=
  ⟨⟨rfl, rfl, rfl⟩, by decide, by decide⟩
theorem witness_InvalidWordHaltsTheMachine : (topState []).ready ∧ (topState []).PC.toNat ≤ 0xFFE ∧
    (0 : Word) = (topState []).readByte (topState []).PC.toNat ++ (topState []).readByte ((topState []).PC.toNat + 1) ∧
    invalidWord (topState []).cfg.extJpV0 0 = true :=
  ⟨⟨rfl, rfl, rfl⟩, by decide, by decide, by decide⟩
theorem witness_FetchOutOfRangeHaltsTheMachine :
    State.ready { State.reset with PC := 0xFFF } ∧ State.ready { State.reset with PC := 0x1000 } ∧
    State.ready { State.reset with PC := 0xFFFF } := ⟨⟨rfl, rfl, rfl⟩, ⟨rfl, rfl, rfl⟩, ⟨rfl, rfl, rfl⟩⟩
theorem witness_HaltedMachineOnlyReports : haltedState.HALTED = true ∧ (14 : Key) ≠ 15 ∧ 16 ≤ 16 ∧
    (List.replicate 3584 (0xFF : Byte)).length ≤ 3584 ∧ 3584 < (List.replicate 3585 (0xFF : Byte)).length := by
  simp only [List.length_replicate]; decide
theorem witness_EveryStepAnswersANextState : (haltedState.HALTED = true ∧ haltedState.FAULT ≠ none) ∧
    State.reset.HALTED ≠ true := by decide
theorem witness_StepPerformsTheScheduledCall :
    ({ State.reset with schedule := [.tickTimers, .tick] } : State).schedule = .tickTimers :: [.tick] ∧
    State.reset.schedule = [] := ⟨rfl, rfl⟩
theorem witness_TickLeavesKeysAndCountsNoTimer :
    tick ((regs [(2, 0x3C)]).withFetchWord 16 0xF215) = .next { (regs [(2, 0x3C)]).withFetchWord 16 0xF215 with
      PC := 0x202, DT := 0x3C } := by rfl
theorem witness_PlacedWordIsRunNext : decodeWord true 0xBFFF = .ok (.jpV0 0xFFF) := by decide
theorem witness_RetPopsIntoPc : State.reset.SP.val = 0 ∧
    ({ State.reset with SP := 1 } : State).SP.val = (0 : Fin 16).val + 1 ∧
    ({ State.reset with SP := 16 } : State).SP.val = (15 : Fin 16).val + 1 := by decide
theorem witness_CallPushesTheReturnAddress : ({ State.reset with SP := 16 } : State).SP.val = 16 ∧
    State.reset.SP.val = (0 : Fin 16).val ∧ ({ State.reset with SP := 15 } : State).SP.val = (15 : Fin 16).val := by decide
theorem witness_ImmediateSkipsCompareTheByte : (regs [(10, 0x42)]).getV 10 = 0x42 ∧ (regs [(10, 0x43)]).getV 10 ≠ 0x42 := by
  decide
theorem witness_RegisterSkipsCompareTheRegisters : State.reset.getV 1 = State.reset.getV 2 ∧
    (regs [(1, 7)]).getV 1 ≠ (regs [(1, 7)]).getV 2 := by decide
theorem witness_KeySkipsTestTheNamedKey : (10 : Key).val = ((regs [(0, 0x1A)]).getV 0).toNat % 16 ∧
    (State.reset.KEY.set 10 true).get 10 = true ∧ State.reset.KEY.get 10 = false ∧
    (15 : Key).val = ((regs [(0, 0xFF)]).getV 0).toNat % 16 := by decide
theorem witness_CallStackIsLifo : State.reset.SP.val + (List.replicate 16 (0x202 : Word)).length ≤ 16 ∧
    16 < State.reset.SP.val + (List.replicate 17 (0x202 : Word)).length := by decide
theorem witness_flag_instructions_into_and_beside_VF : (0 : Reg) ≠ VF ∧ (1 : Reg) ≠ 0 ∧ (1 : Reg) ≠ VF := by decide
theorem witness_ShiftsUnderBothSettings : State.reset.cfg.shiftSrc = .vx ∧
    (State.shiftVy State.reset).cfg.shiftSrc = .vy := by decide
theorem witness_OnlyNamedRegistersAndTheFlagChange :
    exec (.ldImm 0 5) State.reset = .next (State.reset.setV 0 5) ∧ namesDest (.ldImm 0 5) 1 = false ∧
    namesDest (.ldImm 0 5) VF = false ∧ writesFlag (.ldImm 0 5) = false := ⟨rfl, rfl, rfl, rfl⟩
theorem witness_FlagsAreZeroOrOne : writesFlag (.drw 0 0 0) = true ∧
    exec (.drw 0 0 0) State.reset = .next (State.reset.setV VF 0) ∧ (State.reset.setV VF 0).HALTED = false := ⟨rfl, rfl, rfl⟩
theorem witness_BcdStoresThreeDigits : ({ State.reset with I := 0xFFD } : State).I.toNat + 2 ≤ 0xFFF := by decide
theorem witness_BcdFaultsMidway :
    (0xFFF < ({ State.reset with I := 0xFFFF } : State).I.toNat + 0) ∧
    (({ State.reset with I := 0xFFF } : State).I.toNat + 1 = 0x1000) ∧
    (({ State.reset with I := 0xFFE } : State).I.toNat + 2 = 0x1000) := by decide
theorem witness_BlockStoreWritesTheRegisters : ({ State.reset with I := 0xFF0 } : State).I.toNat + (15 : Reg).val ≤ 0xFFF := by
  decide
theorem witness_BlockStoreFaultsMidway : (15 : Reg) ≤ 15 ∧
    ({ State.reset with I := 0xFF1 } : State).I.toNat + (15 : Reg).val = 0x1000 ∧
    0xFFF < ({ State.reset with I := 0xFFFF } : State).I.toNat + (0 : Reg).val := by decide
theorem witness_BlockLoadReadsTheRegisters : State.reset.I.toNat + (0 : Reg).val ≤ 0xFFF ∧
    ({ State.reset with I := 0xFF0 } : State).I.toNat + (15 : Reg).val ≤ 0xFFF := by decide
theorem witness_BlockLoadFaultsMidway : (2 : Reg) ≤ 3 ∧
    ({ State.reset with I := 0xFFE } : State).I.toNat + (2 : Reg).val = 0x1000 ∧
    0xFFF < ({ State.reset with I := 0x1000 } : State).I.toNat + (0 : Reg).val := by decide
theorem witness_FetchSeesEarlierStores : (topState []).PC.toNat ≤ 0xFFE := by decide

/-- One pixel on under the sprite row 0xC0 at 0x300. -/
def drawState : State := { (mem 0x300 [0xC0]) with I := 0x300, FB := Framebuffer.clear.setPixel 0 1 true }

theorem witness_DrawTogglesTheTargetedPixels : (0 : Nibble).toNat = 0 ∧
    ({ State.reset with I := 0xFF1 } : State).I.toNat + (15 : Nibble).toNat ≤ 0x1000 ∧
    (drawState.targets (drawState.getV 0) (drawState.getV 1) 1 0 1 ∧ drawState.FB.pixel 0 1 = true) ∧
    (∀ r c, State.reset.FB.pixel r c = true → False) :=
  ⟨by decide, by decide, ⟨⟨0, by decide, 1, by decide, by decide, by decide, by decide⟩, by decide⟩, by decide⟩
theorem witness_DrawFaultsMidway : 14 < (15 : Nibble).toNat ∧
    ({ State.reset with I := 0xFF2 } : State).I.toNat + 14 = 0x1000 ∧
    0 < (1 : Nibble).toNat ∧ 0xFFF < ({ State.reset with I := 0x1000 } : State).I.toNat + 0 := by decide

/-- The display of `drawState` after its row is drawn at (0, 0). -/
def drawnState : State := ({ drawState with FB := Framebuffer.clear.setPixel 0 0 true } : State).setV VF 1

theorem witness_DrawingTwiceRestoresTheDisplay : drawState.I.toNat + (1 : Nibble).toNat ≤ 0x1000 ∧
    exec (.drw 0 1 1) drawState = .next drawnState ∧ drawnState.getV 0 = drawState.getV 0 ∧
    drawnState.getV 1 = drawState.getV 1 ∧ drawnState.I = drawState.I ∧
    (∀ k < (1 : Nibble).toNat, drawnState.readByte (drawState.I.toNat + k) = drawState.readByte (drawState.I.toNat + k)) ∧
    (drawState.targets (drawState.getV 0) (drawState.getV 1) 1 0 0 ∧ drawState.FB.pixel 0 0 = false) ∧
    drawState.readByte (drawState.I.toNat + 0) ≠ 0 ∧ State.reset.readByte (0x300 + 0) = 0 :=
  ⟨by decide, by rfl, by decide, by decide, by decide, by decide,
    ⟨⟨0, by decide, 0, by decide, by decide, by decide, by decide⟩, by decide⟩, by decide, by decide⟩

/-- Both pixels under the sprite row 0xC0 at 0x300 are on (log entry 10). -/
def drawOnState : State := { drawState with FB := (Framebuffer.clear.setPixel 0 0 true).setPixel 0 1 true }

/-- R160's steps over pixels that are all on: the first draw hits and clears them, the second hits nothing. -/
theorem witness_DrawingTwice_over_pixels_all_on :
    exec (.drw 0 1 1) drawOnState = .next (({ drawOnState with FB := Framebuffer.clear } : State).setV VF 1) ∧
    (¬ ∃ r c, drawOnState.targets (drawOnState.getV 0) (drawOnState.getV 1) (1 : Nibble).toNat r c ∧
      drawOnState.FB.pixel r c = false) ∧ drawOnState.readByte (drawOnState.I.toNat + 0) ≠ 0 := by
  refine ⟨by rfl, ?_, by decide⟩
  rintro ⟨r, c, ⟨row, hrow, col, hcol, hbit, hr, hc⟩, hoff⟩
  have h0 : row = 0 := by have : row < 1 := hrow; omega
  subst h0
  have hr' : r = 0 := Fin.ext hr
  subst hr'
  have hbits : ∀ k < 8, (drawOnState.readByte (drawOnState.I.toNat + 0)).getLsbD (7 - k) = true → k = 0 ∨ k = 1 := by decide
  rcases hbits col hcol hbit with rfl | rfl
  · have hc' : c = 0 := Fin.ext hc
    subst hc'
    exact absurd hoff (by decide)
  · have hc' : c = 1 := Fin.ext hc
    subst hc'
    exact absurd hoff (by decide)
theorem witness_RndMasksOneRandomByte : ({ State.reset with rndIn := [0xA7] } : State).rndIn = 0xA7 :: [] ∧
    State.reset.rndIn = [] := by decide
theorem witness_OnlyRndDependsOnTheRandomSource : (∀ x nn, Instr.cls ≠ .rnd x nn) ∧
    exec (.ldImm 0 5) State.reset = .next (State.reset.setV 0 5) := ⟨by decide, rfl⟩
theorem witness_NoInstructionReadsTheSoundTimer : (∀ x, Instr.ldFromDt 0 ≠ .ldSt x) ∧
    exec (.ldFromDt 0) State.reset = .next (State.reset.setV 0 0) ∧
    exec (.ldSt 0) State.reset = .next { State.reset with ST := 0 } := ⟨by decide, rfl, rfl⟩
theorem witness_KeyWaitKeepsPc : (topState [0xF5, 0x0A]).ready ∧ (topState [0xF5, 0x0A]).PC.toNat ≤ 0xFFE ∧
    decodeWord (topState [0xF5, 0x0A]).cfg.extJpV0 ((topState [0xF5, 0x0A]).readByte (topState [0xF5, 0x0A]).PC.toNat ++
      (topState [0xF5, 0x0A]).readByte ((topState [0xF5, 0x0A]).PC.toNat + 1)) = .ok (.ldKey 5) :=
  ⟨⟨rfl, rfl, rfl⟩, by decide, by decide⟩

/-- A machine waiting for a key into `V[15]`, inside a subroutine. -/
def waitingState : State := { (topState [0xFF, 0x0A]) with
  WAIT := some 15, SP := 1, STACK := State.reset.STACK.set 0 0x1000 }

theorem witness_WaitEndsWithAPressedKey : waitingState.schedule = [] ∧ waitingState.HALTED = false ∧
    waitingState.WAIT = some 15 ∧ (∀ k, waitingState.KEY.get k = false) ∧ waitingState.cfg.keyPick = [] ∧
    (∃ k, ({ waitingState with KEY := State.reset.KEY.set 15 true } : State).KEY.get k = true) :=
  ⟨rfl, rfl, rfl, by decide, rfl, ⟨15, by decide⟩⟩

/-- The keys 4 and 9. -/
def twoKeys : Keypad := (State.reset.KEY.set 4 true).set 9 true

/-- A `KEY_PICK` that is not the minimum: 9 of the keys 4 and 9, which T-key admits. -/
theorem test_wait_takes_the_key_that_KEY_PICK_chooses : calls .tick
    { State.reset with WAIT := some 5, KEY := twoKeys, cfg := { Config.standard with keyPick := [(twoKeys, 9)] } } (fun t =>
    t.getV 5 == 9 && t.PC == 0x202 && t.WAIT == none) = true := by decide
theorem witness_KeyPickCoversEveryChoice :
    (∀ keys : Keypad, (∃ k, keys.get k = true) → keys.get (lowestKey keys) = true) ∧
    (∃ k, (State.reset.KEY.set 15 true).get k = true) := by
  refine ⟨?_, ⟨15, by decide⟩⟩
  rintro keys ⟨k, hk⟩
  have hk' : ∀ j : Key, j ∈ allKeys := by decide
  unfold lowestKey
  cases h : allKeys.find? (keyDown keys) with
  | none => exact absurd hk (List.find?_eq_none.mp h k (hk' k))
  | some j => exact List.find?_some h
theorem witness_SetKeyWritesOneFlag : 16 ≤ 16 ∧ (14 : Key) ≠ 15 := by decide
theorem witness_LoadCopiesTheRom : (List.replicate 3584 (0xFF : Byte)).length ≤ 3584 ∧
    3584 < (List.replicate 3585 (0xFF : Byte)).length := by simp only [List.length_replicate]; decide

/-- Nine executions, one for each clause: `I`, the stack and its level, the timers, memory, the display, the wait. -/
theorem witness_OnlyTheNamedInstructionsWriteEachState :
    (∃ t, exec (.ldI 0xFFF) State.reset = .next t ∧ t.I ≠ State.reset.I) ∧
    (∃ t, exec (.call 0x300) State.reset = .next t ∧ t.STACK ≠ State.reset.STACK ∧ t.SP ≠ State.reset.SP) ∧
    (∃ t, exec .ret waitingState = .next t ∧ t.SP ≠ waitingState.SP) ∧
    (∃ t, exec (.ldDt 0) (regs [(0, 1)]) = .next t ∧ t.DT ≠ (regs [(0, 1)]).DT) ∧
    (∃ t, exec (.ldSt 0) (regs [(0, 1)]) = .next t ∧ t.ST ≠ (regs [(0, 1)]).ST) ∧
    (∃ t, exec (.storeRegs 0) State.reset = .next t ∧ t.MEM ≠ State.reset.MEM) ∧
    (∃ t, exec .cls drawState = .next t ∧ t.FB ≠ drawState.FB) ∧
    (∃ t, exec (.drw 0 1 1) drawState = .next t ∧ t.FB ≠ drawState.FB) ∧
    (∃ t, exec (.ldKey 0) State.reset = .next t ∧ t.WAIT ≠ State.reset.WAIT) :=
  ⟨⟨_, rfl, by decide⟩, ⟨_, rfl, by decide, by decide⟩, ⟨_, rfl, by decide⟩, ⟨_, rfl, by decide⟩, ⟨_, rfl, by decide⟩,
    ⟨_, rfl, by decide⟩, ⟨_, rfl, by decide⟩, ⟨drawnState, by rfl, by decide⟩, ⟨_, rfl, by decide⟩⟩
theorem witness_OnlyControlFlowMovesPcAndOnlySixInstructionsFault :
    (∃ t, exec (.seReg 0 0) State.reset = .next t ∧ t.PC ≠ State.reset.PC) ∧
    (∃ t, exec .ret State.reset = .next t ∧ t.FAULT ≠ State.reset.FAULT) ∧
    (∃ t, exec (.call 0x300) { State.reset with SP := 16 } = .next t ∧ t.FAULT ≠ State.reset.FAULT) ∧
    (∃ t, exec (.drw 0 0 1) { State.reset with I := 0x1000 } = .next t ∧ t.HALTED ≠ State.reset.HALTED) :=
  ⟨⟨_, rfl, by decide⟩, ⟨_, rfl, by decide⟩, ⟨_, rfl, by decide⟩, ⟨_, rfl, by decide⟩⟩
theorem witness_EveryStepKeepsTheInvariant : waitingState.Inv ∧ step waitingState = .next waitingState :=
  ⟨⟨by decide, by decide, fun f h => (by cases h), by decide, by decide, by decide⟩, rfl⟩

/-- `JP 0x200` at 0x200. -/
def selfJump : State := mem 0x200 [0x12, 0x00]

theorem witness_FinishedProgramStaysFinished : selfJump.finished ∧ selfJump.schedule = [] :=
  ⟨⟨rfl, rfl, 0x200, by rfl, by decide⟩, rfl⟩

end Sys2Proof.Tests
end

section
/-! PROOFS. `KEY_PICK` (R5, R82, D19; log entry 7): a table of exceptions to the least key picks a pressed key, and every
choice of a pressed key is such a table. -/

namespace Sys2Proof.Machine

open Sys2Proof

/-! ### The key a table picks -/

theorem get_lowestKey {keys : Keypad} (h : ∃ k, keys.get k = true) : keys.get (lowestKey keys) = true := by
  obtain ⟨k, hk⟩ := h
  obtain ⟨j, hj⟩ : ∃ j, allKeys.find? (keyDown keys) = some j :=
    Option.isSome_iff_exists.mp (List.find?_isSome.mpr ⟨k, mem_allKeys k, hk⟩)
  rw [lowestKey, hj]
  exact List.find?_some hj

theorem pickKey_of_lookup {table : List (Keypad × Key)} {keys : Keypad} {k : Key} (hl : table.lookup keys = some k)
    (hk : keys.get k = true) : pickKey table keys = k := by
  rw [pickKey, hl]
  exact if_pos hk

/-- A table that names no pressed key for `keys` leaves the default of R5. -/
theorem pickKey_of_no_entry {table : List (Keypad × Key)} {keys : Keypad}
    (h : ∀ k, table.lookup keys = some k → keys.get k = false) : pickKey table keys = lowestKey keys := by
  rw [pickKey]
  split
  case h_1 k hk => exact if_neg (Bool.not_eq_true _ ▸ h k hk)
  case h_2 => rfl

theorem get_pickKey (table : List (Keypad × Key)) {keys : Keypad} (h : ∃ k, keys.get k = true) :
    keys.get (pickKey table keys) = true := by
  by_cases hd : ∃ k, table.lookup keys = some k ∧ keys.get k = true
  · obtain ⟨k, hl, hk⟩ := hd
    rwa [pickKey_of_lookup hl hk]
  · have hn : ∀ k, table.lookup keys = some k → keys.get k = false := by simpa using hd
    rw [pickKey_of_no_entry hn]
    exact get_lowestKey h

/-! ### The table of a choice -/

/-- The keypad whose flags are the low 16 bits of `m`. -/
def keypadOfBits (m : Nat) : Keypad := Vector.ofFn fun k => m.testBit k

/-- Every keypad, by its bits. -/
def allKeypads : List Keypad := (List.range (2 ^ 16)).map keypadOfBits

theorem keypadOfBits_ofBits (keys : Keypad) : keypadOfBits (Nat.ofBits keys.get) = keys := by
  ext k hk
  rw [keypadOfBits, Vector.getElem_ofFn, Nat.testBit_ofBits_lt _ _ hk, Vector.get_eq_getElem]

theorem mem_allKeypads (keys : Keypad) : keys ∈ allKeypads :=
  List.mem_map.mpr ⟨_, List.mem_range.mpr (Nat.ofBits_lt_two_pow keys.get), keypadOfBits_ofBits keys⟩

/-- The setting of `KEY_PICK` that lists the choice `f` for every keypad. -/
def keyPickTable (f : Keypad → Key) : List (Keypad × Key) := allKeypads.map fun keys => (keys, f keys)

theorem pickKey_keyPickTable {f : Keypad → Key} {keys : Keypad} (h : keys.get (f keys) = true) :
    pickKey (keyPickTable f) keys = f keys :=
  pickKey_of_lookup (List.lookup_graph f (mem_allKeypads keys)) h

/-- Settles O50: a table's entry is used only when its key is pressed, and the least key otherwise; and a choice `f` is
the table that lists `f` for all the finitely many keypads. -/
theorem keyPickCoversEveryChoice : Obligations.KeyPickCoversEveryChoice := by
  unfold Obligations.KeyPickCoversEveryChoice
  exact ⟨fun table _ h => get_pickKey table h,
    fun f hf => ⟨keyPickTable f, fun keys h => pickKey_keyPickTable (hf keys h)⟩⟩

end Sys2Proof.Machine
end

section
/-! PROOFS. One call per step (R24), the reset state (R26), and the call stack as a LIFO (R16). -/

namespace Sys2Proof.Machine

open Sys2Proof

/-! ### One call per step (R24) and the reset state (R26) -/

/-- Settles O11: `step` is `nextCall`, which is a match on the schedule. -/
theorem stepPerformsTheScheduledCall : Obligations.StepPerformsTheScheduledCall := by
  unfold Obligations.StepPerformsTheScheduledCall
  intro s c rest
  constructor
  · intro h
    simp only [step, nextCall, h]
  · intro h
    simp only [step, nextCall, h]

/-- Where no cell is listed, memory reads as its reset contents (R26). -/
theorem State.readByte_of_MEM_nil {s : State} (h : s.MEM = []) (a : Nat) :
    s.readByte a = Memory.resetByte s.cfg.font a := by
  rw [State.readByte, h, Memory.read_nil]

theorem Memory.resetByte_of_lt (font : Font) {a : Nat} (h : a < 80) : Memory.resetByte font a = font[a] := dif_pos h

theorem Memory.resetByte_of_ge (font : Font) {a : Nat} (h : 80 ≤ a) : Memory.resetByte font a = 0 :=
  dif_neg (Nat.not_lt.mpr h)

/-- Settles O55: memory lists no cell, so it reads as the font and zeros; every other component is written out in
`State.powerOn`. -/
theorem resetStateHoldsTheResetValues : Obligations.ResetStateHoldsTheResetValues := by
  unfold Obligations.ResetStateHoldsTheResetValues
  have hmem (a : Nat) : State.reset.readByte a = Memory.resetByte Config.defaultFont a := State.readByte_of_MEM_nil rfl a
  have hreg (r : Reg) : State.reset.getV r = 0 := by
    simp only [State.getV, State.reset, State.powerOn, Vector.get_eq_getElem, Vector.getElem_replicate]
  have hstack (k : Fin 16) : State.reset.STACK.get k = 0 := by
    simp only [State.reset, State.powerOn, Vector.get_eq_getElem, Vector.getElem_replicate]
  have hkey (k : Key) : State.reset.KEY.get k = false := by
    simp only [State.reset, State.powerOn, Vector.get_eq_getElem, Vector.getElem_replicate]
  exact ⟨fun a h => (hmem a).trans (Memory.resetByte_of_lt _ h), fun a h => (hmem a).trans (Memory.resetByte_of_ge _ h),
    Framebuffer.pixel_clear, rfl, rfl, rfl, hreg, rfl, rfl, hstack, rfl, rfl, rfl, hkey⟩

/-! ### The call stack (R16) -/

theorem get_set_stack (stack : Vector Word 16) {n : Nat} (hn : n < 16) (v : Word) (k : Fin 16) :
    (stack.set n v hn).get k = if k.val = n then v else stack.get k := by
  simp only [Vector.get_eq_getElem, Vector.getElem_set, eq_comm]

theorem State.pushAll_cons_of_push {s s' : State} {v : Word} (h : s.push v = .ok s') (vs : List Word) :
    s.pushAll (v :: vs) = s'.pushAll vs := by
  rw [State.pushAll, h]

/-- One pop more, after `n` of them. -/
theorem State.popMany_succ_of_pop {n : Nat} : ∀ {t u w : State} {vs : List Word} {v : Word},
    t.popMany n = .ok (vs, u) → u.pop = .ok (v, w) → t.popMany (n + 1) = .ok (vs ++ [v], w) := by
  induction n with
  | zero =>
    intro t u w vs v hmany hpop
    cases hmany
    rw [State.popMany, hpop]
    rfl
  | succ n ih =>
    intro t u w vs v hmany hpop
    rw [State.popMany] at hmany ⊢
    cases hfirst : t.pop with
    | error f => rw [hfirst] at hmany; cases hmany
    | ok first =>
      obtain ⟨v₁, t₁⟩ := first
      simp only [hfirst] at hmany ⊢
      cases hrest : t₁.popMany n with
      | error f => rw [hrest] at hmany; cases hmany
      | ok rest =>
        rw [hrest] at hmany
        cases hmany
        rw [ih hrest hpop]
        rfl

/-- Values pushed are popped in reverse order, and the entries below them stay. -/
theorem State.popMany_pushAll (vs : List Word) : ∀ s : State, s.SP.val + vs.length ≤ 16 →
    ∃ t u, s.pushAll vs = .ok t ∧ t.SP.val = s.SP.val + vs.length ∧ t.popMany vs.length = .ok (vs.reverse, u) ∧
      u.SP = s.SP ∧ ∀ k : Fin 16, k.val < s.SP.val → u.STACK.get k = s.STACK.get k := by
  induction vs with
  | nil => intro s _; exact ⟨s, s, rfl, rfl, rfl, rfl, fun _ _ => rfl⟩
  | cons v vs ih =>
    intro s hfit
    rw [List.length_cons] at hfit
    have hlt : s.SP.val < 16 := by omega
    have hpush := s.push_ok v hlt
    obtain ⟨t, u, ht, htSP, hu, huSP, hstack⟩ :=
      ih { s with STACK := s.STACK.set s.SP.val v hlt, SP := ⟨s.SP.val + 1, Nat.succ_lt_succ hlt⟩ }
        (show s.SP.val + 1 + vs.length ≤ 16 by omega)
    have htop : u.STACK.get ⟨s.SP.val, hlt⟩ = v := by
      rw [hstack _ (Nat.lt_succ_self _), get_set_stack, if_pos rfl]
    have hpop := u.pop_ok ⟨s.SP.val, hlt⟩ (by rw [huSP])
    rw [htop] at hpop
    refine ⟨t, { u with SP := s.SP }, (State.pushAll_cons_of_push hpush vs).trans ht, ?_, ?_, rfl, ?_⟩
    · rw [htSP, List.length_cons]
      exact Nat.add_right_comm _ _ _
    · rw [List.reverse_cons]
      exact State.popMany_succ_of_pop hu hpop
    · intro k hk
      rw [hstack k (Nat.lt_succ_of_lt hk), get_set_stack, if_neg (Nat.ne_of_lt hk)]

theorem State.pushAll_overflow (vs : List Word) : ∀ s : State, 16 < s.SP.val + vs.length →
    s.pushAll vs = .error .stackOverflow := by
  induction vs with
  | nil =>
    intro s h
    rw [List.length_nil] at h
    have := s.SP.isLt
    omega
  | cons v vs ih =>
    intro s h
    rw [List.length_cons] at h
    by_cases hlt : s.SP.val < 16
    · rw [State.pushAll_cons_of_push (s.push_ok v hlt)]
      exact ih _ (show 16 < s.SP.val + 1 + vs.length by omega)
    · rw [State.pushAll, s.push_full v (by have := s.SP.isLt; omega)]

/-- Settles O22, by induction on the values pushed: pushing them leaves the entries below alone, so the value pushed first
is the one popped last. -/
theorem callStackIsLifo : Obligations.CallStackIsLifo := by
  unfold Obligations.CallStackIsLifo
  intro s vs
  refine ⟨fun hfit => ?_, State.pushAll_overflow vs s⟩
  obtain ⟨t, u, ht, htSP, hu, huSP, -⟩ := State.popMany_pushAll vs s hfit
  exact ⟨t, u, ht, htSP, hu, huSP⟩

end Sys2Proof.Machine
end

section
/-! PROOFS. What an instruction can write and which faults it can raise, said once for all of them (`Effect`, `exec_effect`), and
the claims over all instructions that follow from it (R12 to R21, R46, R200). -/

namespace Sys2Proof.Machine

open Sys2Proof

/-! ### What an instruction can do -/

/-- The instructions that write `I` (R13). -/
def WritesIndex (i : Instr) : Prop := (∃ nnn, i = .ldI nnn) ∨ (∃ x, i = .addI x) ∨ ∃ x, i = .ldF x

/-- The instructions that write memory (R46). -/
def WritesMemory (i : Instr) : Prop := (∃ x, i = .ldB x) ∨ ∃ x, i = .storeRegs x

/-- The instructions that write the display (R19). -/
def WritesDisplay (i : Instr) : Prop := i = .cls ∨ ∃ x y n, i = .drw x y n

/-- The instructions that read or write memory at `I` (R200, R204). -/
def UsesMemory (i : Instr) : Prop :=
  (∃ x, i = .ldB x) ∨ (∃ x, i = .storeRegs x) ∨ (∃ x, i = .loadRegs x) ∨ ∃ x y n, i = .drw x y n

/-- The six skips (R104 to R109). -/
def IsSkip (i : Instr) : Prop :=
  (∃ x nn, i = .seImm x nn) ∨ (∃ x nn, i = .sneImm x nn) ∨ (∃ x y, i = .seReg x y) ∨ (∃ x y, i = .sneReg x y) ∨
    (∃ x, i = .skp x) ∨ ∃ x, i = .sknp x

/-- From registers `V` to registers `W`, only those that `i` names or writes as a flag change (R12). -/
def KeepsUnnamed (i : Instr) (V W : Vector Byte 16) : Prop :=
  ∀ r, namesDest i r = false → (r = VF → writesFlag i = false) → W.get r = V.get r

/-- The faults an instruction can raise at execution (R200); `I + k` is an effective address (R42). -/
inductive Raises (s : State) : Instr → Fault → Prop where
  | underflow : Raises s .ret .stackUnderflow
  | overflow (nnn : Imm12) : Raises s (.call nnn) .stackOverflow
  | outOfRange {i : Instr} {k : Nat} (hi : UsesMemory i) (hk : k ≤ 15) (h : 0xFFF < s.I.toNat + k) :
      Raises s i (.memoryOutOfRange (s.I.toNat + k))

/-- Everything an instruction can do to `s`: write the piece of state its group writes, and possibly fault after that with
the partial effect kept (R47, R206). -/
inductive Effect (s : State) : Instr → State → Prop where
  | registers {i : Instr} {V : Vector Byte 16} {rndIn : List Byte} {draws : Nat} (hV : KeepsUnnamed i s.V V) :
      Effect s i { s with V := V, rndIn := rndIn, draws := draws }
  | index {i : Instr} {w : Word} (hi : WritesIndex i) : Effect s i { s with I := w }
  | memory {i : Instr} {m : Memory} (hi : WritesMemory i)
      (hm : Memory.wf s.cfg.font s.MEM → Memory.wf s.cfg.font m) : Effect s i { s with MEM := m }
  | display {i : Instr} {V : Vector Byte 16} {fb : Framebuffer} (hi : WritesDisplay i) (hV : KeepsUnnamed i s.V V) :
      Effect s i { s with V := V, FB := fb }
  | delayTimer (x : Reg) : Effect s (.ldDt x) { s with DT := s.getV x }
  | soundTimer (x : Reg) : Effect s (.ldSt x) { s with ST := s.getV x }
  | jump (nnn : Imm12) : Effect s (.jp nnn) (s.jump (zext16 nnn))
  | jumpV0 (nnn : Imm12) : Effect s (.jpV0 nnn) (s.jump (zext16 nnn + zextByte (s.getV 0)))
  | skip {i : Instr} {c : Bool} (hi : IsSkip i) : Effect s i (s.skipIf c)
  | call (nnn : Imm12) (h : s.SP.val < 16) : Effect s (.call nnn)
      { s with STACK := s.STACK.set s.SP.val s.PC h, SP := ⟨s.SP.val + 1, Nat.succ_lt_succ h⟩, PC := zext16 nnn }
  | ret {k : Fin 16} (h : s.SP.val = k.val + 1) :
      Effect s .ret { s with PC := s.STACK.get k, SP := ⟨k.val, Nat.lt_succ_of_lt k.isLt⟩ }
  | wait (x : Reg) : Effect s (.ldKey x) { s with WAIT := some x, PC := s.PC - 2 }
  | fault {i : Instr} {t : State} {f : Fault} (ht : Effect s i t) (hw : t.WAIT = s.WAIT) (hf : Raises s i f) :
      Effect s i { t with HALTED := true, FAULT := some f }

theorem KeepsUnnamed.refl (i : Instr) (V : Vector Byte 16) : KeepsUnnamed i V V := fun _ _ _ => rfl

section
variable {s t : State} {i : Instr} {x : Reg}

theorem Effect.refl (s : State) (i : Instr) : Effect s i s := .registers (.refl i s.V)

theorem Effect.setV {b : Byte} (hx : namesDest i x = true) : Effect s i (s.setV x b) := by
  refine .registers fun r hr _ => State.getV_setV_ne s x r b ?_
  rintro rfl
  simp [hx] at hr

theorem Effect.setResultThenFlag {a b : Byte} (hx : namesDest i x = true) (hf : writesFlag i = true) :
    Effect s i (s.setResultThenFlag x a b) := by
  refine .registers fun r hr hflag => ?_
  have hVF : r ≠ VF := by simpa [hf] using hflag
  have hrx : r ≠ x := by
    rintro rfl
    simp [hx] at hr
  exact (s.getV_setResultThenFlag x r a b).trans ((if_neg hVF).trans (if_neg hrx))

theorem Effect.of_next {u : State} (h : (.next u : Result) = .next t) (hu : Effect s i u) : Effect s i t :=
  Host.Outcome.next.inj h ▸ hu

theorem effect_of_execRet (h : exec .ret s = .next t) : Effect s .ret t := by
  obtain ⟨-, rfl⟩ | ⟨k, hk, rfl⟩ := execRet_cases s t h
  · exact .fault (.refl s _) rfl .underflow
  · exact .ret hk

theorem effect_of_execCall {nnn : Imm12} (h : exec (.call nnn) s = .next t) : Effect s (.call nnn) t := by
  obtain ⟨-, rfl⟩ | ⟨hk, rfl⟩ := execCall_cases nnn s t h
  · exact .fault (.refl s _) rfl (.overflow nnn)
  · exact .call nnn hk

theorem effect_of_execLdB (h : exec (.ldB x) s = .next t) : Effect s (.ldB x) t := by
  obtain ⟨ht | ⟨k, hk, hout, -, ht⟩, hwf⟩ := execLdB_cases x s t h
  · rw [ht]
    exact .memory (.inl ⟨x, rfl⟩) hwf
  · rw [ht]
    exact .fault (.memory (.inl ⟨x, rfl⟩) hwf) rfl (.outOfRange (.inl ⟨x, rfl⟩) (by omega) hout)

theorem effect_of_execStoreRegs (h : exec (.storeRegs x) s = .next t) : Effect s (.storeRegs x) t := by
  obtain ⟨ht | ⟨k, hk, hout, -, ht⟩, hwf⟩ := execStoreRegs_cases x s t h
  · rw [ht]
    exact .memory (.inr ⟨x, rfl⟩) hwf
  · rw [ht]
    exact .fault (.memory (.inr ⟨x, rfl⟩) hwf) rfl (.outOfRange (.inr (.inl ⟨x, rfl⟩)) (by omega) hout)

theorem effect_of_execLoadRegs (h : exec (.loadRegs x) s = .next t) : Effect s (.loadRegs x) t := by
  obtain ⟨hcases, hreg⟩ := execLoadRegs_cases x s t h
  have hV : KeepsUnnamed (.loadRegs x) s.V t.V := fun r hr _ => hreg r (not_le.mp (of_decide_eq_false hr))
  obtain ht | ⟨k, hk, hout, ht⟩ := hcases
  · rw [ht]
    exact .registers hV
  · rw [ht]
    exact .fault (.registers hV) rfl (.outOfRange (.inr (.inr (.inl ⟨x, rfl⟩))) (by omega) hout)

theorem effect_of_execDrw {y : Reg} {n : Nibble} (h : exec (.drw x y n) s = .next t) : Effect s (.drw x y n) t := by
  obtain ⟨f, ht⟩ | ⟨k, hk, hout, ht⟩ := execDrw_cases x y n s t h
  · rw [ht]
    exact .display (.inr ⟨x, y, n, rfl⟩) fun r _ hflag => s.getV_setV_ne VF r _ fun hr => Bool.noConfusion (hflag hr)
  · rw [ht]
    exact .fault (t := { s with FB := t.FB }) (.display (.inr ⟨x, y, n, rfl⟩) (.refl _ s.V)) rfl
      (.outOfRange (.inr (.inr (.inr ⟨x, y, n, rfl⟩))) (by omega) hout)

theorem effect_of_execRnd {nn : Byte} (h : exec (.rnd x nn) s = .next t) : Effect s (.rnd x nn) t := by
  refine .of_next h ?_
  rw [State.drawRnd_frame]
  exact .registers fun r hr _ => s.getV_setV_ne x r _ (ne_of_beq_false hr)

/-- Every instruction does what `Effect` says (R86). -/
theorem exec_effect : ∀ {i : Instr}, exec i s = .next t → Effect s i t
  | .cls, h => .of_next h (.display (.inl rfl) (.refl _ _))
  | .ret, h => effect_of_execRet h
  | .jp nnn, h => .of_next h (.jump nnn)
  | .call _, h => effect_of_execCall h
  | .seImm x nn, h => .of_next h (.skip (.inl ⟨x, nn, rfl⟩))
  | .sneImm x nn, h => .of_next h (.skip (.inr (.inl ⟨x, nn, rfl⟩)))
  | .seReg x y, h => .of_next h (.skip (.inr (.inr (.inl ⟨x, y, rfl⟩))))
  | .sneReg x y, h => .of_next h (.skip (.inr (.inr (.inr (.inl ⟨x, y, rfl⟩)))))
  | .skp x, h => .of_next h (.skip (.inr (.inr (.inr (.inr (.inl ⟨x, rfl⟩))))))
  | .sknp x, h => .of_next h (.skip (.inr (.inr (.inr (.inr (.inr ⟨x, rfl⟩))))))
  | .ldImm x _, h | .addImm x _, h | .ldReg x _, h | .orReg x _, h | .andReg x _, h | .xorReg x _, h
  | .ldFromDt x, h => .of_next h (.setV (beq_self_eq_true x))
  | .addReg x _, h | .sub x _, h | .subn x _, h | .shr x _, h | .shl x _, h =>
    .of_next h (.setResultThenFlag (beq_self_eq_true x) rfl)
  | .ldI nnn, h => .of_next h (.index (.inl ⟨nnn, rfl⟩))
  | .addI x, h => .of_next h (.index (.inr (.inl ⟨x, rfl⟩)))
  | .ldF x, h => .of_next h (.index (.inr (.inr ⟨x, rfl⟩)))
  | .ldB _, h => effect_of_execLdB h
  | .storeRegs _, h => effect_of_execStoreRegs h
  | .loadRegs _, h => effect_of_execLoadRegs h
  | .drw _ _ _, h => effect_of_execDrw h
  | .ldDt x, h => .of_next h (.delayTimer x)
  | .ldSt x, h => .of_next h (.soundTimer x)
  | .rnd _ _, h => effect_of_execRnd h
  | .ldKey x, h => .of_next h (.wait x)
  | .jpV0 nnn, h => .of_next h (.jumpV0 nnn)

end

/-! ### Which instruction writes which piece of state (R12, R13, R14, R16, R17, R19, R20, R21, R46) -/

theorem Effect.keepsUnnamed {s t : State} {i : Instr} (h : Effect s i t) : KeepsUnnamed i s.V t.V := by
  induction h with
  | registers hV => exact hV
  | display _ hV => exact hV
  | skip => rw [State.skipIf_V]; exact .refl _ _
  | fault _ _ _ ih => exact ih
  | _ => exact .refl _ _

/-- Settles O29: it is the register frame of every effect. -/
theorem onlyNamedRegistersAndTheFlagChange : Obligations.OnlyNamedRegistersAndTheFlagChange := by
  unfold Obligations.OnlyNamedRegistersAndTheFlagChange
  exact fun _ _ _ r h => (exec_effect h).keepsUnnamed r

/-- Settles O56: each effect leaves every piece of state but its own group's as it was. -/
theorem onlyTheNamedInstructionsWriteEachState : Obligations.OnlyTheNamedInstructionsWriteEachState := by
  unfold Obligations.OnlyTheNamedInstructionsWriteEachState
  intro i s t h
  replace h := exec_effect h
  induction h with
  | index hi =>
    unfold WritesIndex at hi
    simp [hi]
  | memory hi =>
    unfold WritesMemory at hi
    simp [hi]
  | display hi =>
    unfold WritesDisplay at hi
    simp [hi]
  | fault _ _ _ ih => exact ih
  | _ => simp

/-! ### What moves `PC` and what faults (R14, R200) -/

/-- Settles O57: the effects that leave the advanced `PC` are those of the control flow, the skips and the key-wait, and the
fault fields are written by the last effect only, for the instructions of `Raises`. -/
theorem onlyControlFlowMovesPcAndOnlySixInstructionsFault :
    Obligations.OnlyControlFlowMovesPcAndOnlySixInstructionsFault := by
  unfold Obligations.OnlyControlFlowMovesPcAndOnlySixInstructionsFault
  intro i s t h
  replace h := exec_effect h
  induction h with
  | @skip i c hi =>
    cases c
    case false => simp
    case true => exact ⟨fun _ => .inr (.inr (.inr (.inr (.inr ⟨hi, rfl⟩)))), by simp⟩
  | fault _ _ hf ih =>
    obtain ⟨hpc, -⟩ := ih
    refine ⟨hpc, fun _ => ?_⟩
    cases hf with
    | underflow => exact .inl ⟨rfl, rfl⟩
    | overflow nnn => exact .inr (.inl ⟨⟨nnn, rfl⟩, rfl⟩)
    | outOfRange hi _ hout => exact .inr (.inr ⟨hi, _, hout, rfl⟩)
  | _ => simp

end Sys2Proof.Machine
end

section
/-! PROOFS. The invariant (R15, R16, R18, R21, R22): held at reset, and kept by every effect of an instruction, every tick and
every call of the driver. -/

namespace Sys2Proof.Machine

open Sys2Proof

/-! ### The invariant under fault entry, reset and a new `PC` -/

/-- Fault entry (R206) by a machine that is not waiting keeps the invariant. -/
theorem State.Inv.raise {s : State} {f : Fault} (h : s.Inv) (hwait : s.WAIT = none) (hf : f.payloadOk s.cfg.extJpV0) :
    State.Inv { s with HALTED := true, FAULT := some f } :=
  { h with
    halted_iff_fault := iff_of_true rfl rfl
    fault_payload := fun _ hg => Option.some.inj hg ▸ hf
    waiting := fun hw => absurd hwait hw }

theorem State.Inv.withPC {s : State} {pc : Word} (h : s.Inv) (hwait : s.WAIT = none)
    (hpc : pc.toNat ≤ (if s.cfg.extJpV0 then 0x10FE else 0x1002)) : State.Inv { s with PC := pc } :=
  { h with
    pc_range := hpc
    waiting := fun hw => absurd hwait hw }

theorem State.Inv.withMEM {s : State} {m : Memory} (h : s.Inv) (hm : Memory.wf s.cfg.font m) :
    State.Inv { s with MEM := m } :=
  { h with memory := hm }

/-- A bound on `PC` that holds without the optional jump holds with it (R15). -/
theorem pcRange_of_le (ext : Bool) {n : Nat} (h : n ≤ 0x1002) : n ≤ (if ext then 0x10FE else 0x1002) := by
  split <;> omega

theorem toNat_word_add_two {w : Word} (h : w.toNat ≤ 0x1000) : (w + 2).toNat = w.toNat + 2 := by
  exact BitVec.toNat_add_of_lt (Nat.lt_of_le_of_lt (Nat.add_le_add_right h 2) (by decide))

theorem toNat_zext16_le (nnn : Imm12) : (zext16 nnn).toNat ≤ 0xFFF := by
  have := nnn.isLt
  simp [zext16]
  omega

/-- `reset()` keeps the invariant; nothing is asked of the state it ends (R209, R240). -/
theorem State.hostReset_inv (s : State) : s.hostReset.Inv where
  memory := Memory.wf_nil _
  halted_iff_fault := iff_of_false Bool.false_ne_true Bool.false_ne_true
  fault_payload := fun f h => absurd h.symm (Option.some_ne_none f)
  pc_range := pcRange_of_le _ (show 0x200 ≤ 0x1002 by decide)
  stack_range := fun _ h => absurd h (Nat.not_lt_zero _)
  waiting := fun h => absurd rfl h

/-- Settles O58: the reset state is what `reset()` leaves of it. -/
theorem resetStateSatisfiesTheInvariant : Obligations.ResetStateSatisfiesTheInvariant :=
  State.hostReset_inv State.reset

/-! ### The invariant under an instruction -/

theorem Raises.payloadOk {s : State} {i : Instr} {f : Fault} (h : Raises s i f) (ext : Bool) : f.payloadOk ext := by
  cases h with
  | underflow => trivial
  | overflow => trivial
  | outOfRange _ hk hout =>
    have := s.I.isLt
    exact ⟨hout, by omega⟩

/-- The state in which a tick runs an instruction: the invariant holds, nothing waits, and `PC` has just advanced from a
legal fetch address (R83, R84). -/
structure State.Executing (s : State) : Prop where
  inv : s.Inv
  running : s.HALTED = false
  not_waiting : s.WAIT = none
  pc_ge : 2 ≤ s.PC.toNat
  pc_le : s.PC.toNat ≤ 0x1000

theorem State.Executing.of_advance {s : State} (h : s.Inv) (hrun : s.HALTED = false) (hwait : s.WAIT = none)
    (hpc : s.PC.toNat ≤ 0xFFE) : s.advance.Executing := by
  have hadv : s.advance.PC.toNat = s.PC.toNat + 2 := toNat_word_add_two (by omega)
  exact ⟨h.withPC hwait (pcRange_of_le _ (hadv ▸ by omega)), hrun, hwait, by omega, by omega⟩

theorem State.Executing.call {s : State} (h : s.Executing) (nnn : Imm12) (hlt : s.SP.val < 16) :
    State.Inv { s with
      STACK := s.STACK.set s.SP.val s.PC hlt, SP := ⟨s.SP.val + 1, Nat.succ_lt_succ hlt⟩, PC := zext16 nnn } :=
  { h.inv with
    pc_range := pcRange_of_le _ ((toNat_zext16_le nnn).trans (by decide))
    stack_range := by
      intro k hk
      rw [get_set_stack]
      split
      case isTrue => exact ⟨h.pc_ge, h.pc_le⟩
      case isFalse hne => exact h.inv.stack_range k (Nat.lt_of_le_of_ne (Nat.le_of_lt_succ hk) hne)
    waiting := fun hw => absurd h.not_waiting hw }

theorem State.Executing.ret {s : State} (h : s.Executing) {k : Fin 16} (hk : s.SP.val = k.val + 1) :
    State.Inv { s with PC := s.STACK.get k, SP := ⟨k.val, Nat.lt_succ_of_lt k.isLt⟩ } :=
  { h.inv with
    pc_range := by
      obtain ⟨-, hle⟩ := h.inv.stack_range k (by omega)
      exact pcRange_of_le _ (hle.trans (by decide))
    stack_range := fun j hj => h.inv.stack_range j (by simp only at hj; omega)
    waiting := fun hw => absurd h.not_waiting hw }

theorem State.Executing.jumpV0 {s : State} (h : s.Executing) (nnn : Imm12) (hext : s.cfg.extJpV0 = true) :
    State.Inv (s.jump (zext16 nnn + zextByte (s.getV 0))) := by
  refine h.inv.withPC h.not_waiting ?_
  rw [if_pos hext, BitVec.toNat_add]
  have hn := toNat_zext16_le nnn
  have hb : (zextByte (s.getV 0)).toNat ≤ 0xFF := by
    have := (s.getV 0).isLt
    simp [zextByte]
    omega
  omega

theorem State.Executing.skipIf {s : State} (h : s.Executing) (c : Bool) : State.Inv (s.skipIf c) := by
  cases c
  case false => exact h.inv
  case true =>
    have hle := h.pc_le
    exact h.inv.withPC h.not_waiting (pcRange_of_le _ (by rw [toNat_word_add_two hle]; omega))

/-- The wait begins at the address of the instruction, a legal fetch address (R175). -/
theorem State.Executing.wait {s : State} (h : s.Executing) (x : Reg) :
    State.Inv { s with WAIT := some x, PC := s.PC - 2 } := by
  have hge := h.pc_ge
  have hle := h.pc_le
  have hpc : (s.PC - 2).toNat = s.PC.toNat - 2 := BitVec.toNat_sub_of_le hge
  exact { h.inv with
    pc_range := pcRange_of_le _ (by show (s.PC - 2).toNat ≤ _; omega)
    waiting := fun _ => ⟨h.running, by show (s.PC - 2).toNat ≤ _; omega⟩ }

/-- No effect of an instruction the decoder gives breaks the invariant. -/
theorem Effect.inv {s t : State} {i : Instr} (he : Effect s i t) (h : s.Executing)
    (hwf : i.wellFormed s.cfg.extJpV0 = true) : t.Inv := by
  induction he with
  | registers => exact { h.inv with }
  | index => exact { h.inv with }
  | memory _ hm => exact h.inv.withMEM (hm h.inv.memory)
  | display => exact { h.inv with }
  | delayTimer => exact { h.inv with }
  | soundTimer => exact { h.inv with }
  | jump nnn => exact h.inv.withPC h.not_waiting (pcRange_of_le _ ((toNat_zext16_le nnn).trans (by decide)))
  | jumpV0 nnn => exact h.jumpV0 nnn hwf
  | skip => exact h.skipIf _
  | call nnn hlt => exact h.call nnn hlt
  | ret hk => exact h.ret hk
  | wait x => exact h.wait x
  | fault _ hw hf ih => exact (ih hwf).raise (hw.trans h.not_waiting) (hf.payloadOk _)

/-! ### The decoder gives the instructions of the machine only (R69, R110) -/

section
variable {ext : Bool} {w : Word} {i : Instr}

theorem decode0_wellFormed (h : decode0 w = .ok i) : i.wellFormed ext = true := by
  unfold decode0 at h
  split at h
  · cases h; rfl
  · split at h <;> cases h; rfl

theorem decode8_wellFormed (h : decode8 w = .ok i) : i.wellFormed ext = true := by
  unfold decode8 at h
  split at h <;> cases h <;> rfl

theorem decodeE_wellFormed (h : decodeE w = .ok i) : i.wellFormed ext = true := by
  unfold decodeE at h
  split at h <;> cases h <;> rfl

theorem decodeF_wellFormed (h : decodeF w = .ok i) : i.wellFormed ext = true := by
  unfold decodeF at h
  split at h <;> cases h <;> rfl

/-- `JP V0` is decoded only where `EXT_JP_V0` is true, and no other instruction depends on it. -/
theorem decodeWord_wellFormed (h : decodeWord ext w = .ok i) : i.wellFormed ext = true := by
  unfold decodeWord at h
  split at h
  case h_1 => exact decode0_wellFormed h
  case h_9 => exact decode8_wellFormed h
  case h_15 => exact decodeE_wellFormed h
  case h_16 => exact decodeF_wellFormed h
  case h_12 =>
    split at h <;> cases h
    assumption
  case h_6 | h_10 => split at h <;> cases h; rfl
  all_goals cases h; rfl

end

/-! ### The invariant under a tick and under every call of the driver -/

/-- Everything a tick can do (R80 to R89). -/
inductive TickEffect (s : State) : State → Prop where
  | halted (hrun : s.HALTED = true) : TickEffect s s
  | waiting {x : Reg} (hrun : s.HALTED = false) (hwait : s.WAIT = some x) : TickEffect s (s.waitCheck x)
  | fetchFault (hwait : s.WAIT = none) (hpc : 0xFFE < s.PC.toNat) : TickEffect s
      { s with HALTED := true, FAULT := some (.memoryOutOfRange (if s.PC.toNat = 0xFFF then 0x1000 else s.PC.toNat)) }
  | invalid {w : Word} (hrun : s.HALTED = false) (hwait : s.WAIT = none) (hpc : s.PC.toNat ≤ 0xFFE)
      (hw : decodeWord s.cfg.extJpV0 w = .error (.invalidOpcode w)) :
      TickEffect s { s.advance with HALTED := true, FAULT := some (.invalidOpcode w) }
  | runs {t : State} {w : Word} {i : Instr} (hrun : s.HALTED = false) (hwait : s.WAIT = none)
      (hpc : s.PC.toNat ≤ 0xFFE) (hw : decodeWord s.cfg.extJpV0 w = .ok i) (hi : exec i s.advance = .next t) :
      TickEffect s t

theorem tick_effect {s t : State} (h : tick s = .next t) : TickEffect s t := by
  unfold tick at h
  split at h
  case isTrue hrun =>
    cases h
    exact .halted hrun
  case isFalse hrun =>
    have hrun : s.HALTED = false := Bool.eq_false_of_not_eq_true hrun
    split at h
    case h_1 x hwait =>
      cases h
      exact .waiting hrun hwait
    case h_2 hwait =>
      by_cases hpc : s.PC.toNat ≤ 0xFFE
      · simp only [s.fetch_ok hpc, State.runWord] at h
        split at h
        case h_1 i hw => exact .runs hrun hwait hpc hw h
        case h_2 e hw =>
          cases h
          exact .invalid hrun hwait hpc (decodeWord_error _ _ _ hw ▸ hw)
      · have hpc : 0xFFE < s.PC.toNat := Nat.lt_of_not_le hpc
        rw [s.fetch_fault hpc] at h
        cases h
        exact .fetchFault hwait hpc

theorem State.fetchFault_payloadOk (s : State) (hpc : 0xFFE < s.PC.toNat) :
    Fault.payloadOk s.cfg.extJpV0 (.memoryOutOfRange (if s.PC.toNat = 0xFFF then 0x1000 else s.PC.toNat)) := by
  have hmax := s.PC.isLt
  split
  · exact ⟨by decide, by decide⟩
  · exact ⟨by omega, by omega⟩

/-- The key that ends a wait moves `PC` on from a legal fetch address (R82). -/
theorem State.Inv.waitCheck {s : State} {x : Reg} (h : s.Inv) (hwait : s.WAIT = some x) : (s.waitCheck x).Inv := by
  obtain heq | heq := s.waitCheck_cases x
  · rw [heq]
    exact h
  · rw [heq]
    obtain ⟨-, hpc⟩ := h.waiting (by rw [hwait]; exact Option.some_ne_none x)
    have hadv : (s.PC + 2).toNat = s.PC.toNat + 2 := toNat_word_add_two (by omega)
    exact { h with
      pc_range := pcRange_of_le _ (by show (s.PC + 2).toNat ≤ _; omega)
      waiting := fun hw => absurd rfl hw }

theorem State.Inv.tick {s t : State} (h : s.Inv) (ht : tick s = .next t) : t.Inv := by
  cases tick_effect ht with
  | halted => exact h
  | waiting _ hwait => exact h.waitCheck hwait
  | fetchFault hwait hpc => exact h.raise hwait (s.fetchFault_payloadOk hpc)
  | invalid hrun hwait hpc hw => exact (State.Executing.of_advance h hrun hwait hpc).inv.raise hwait hw
  | runs hrun hwait hpc hw hi =>
    exact (exec_effect hi).inv (.of_advance h hrun hwait hpc) (decodeWord_wellFormed hw)

theorem State.Inv.afterLoad {s : State} (h : s.Inv) (bytes : List Byte) : (s.afterLoad bytes).Inv := by
  unfold State.afterLoad State.load
  by_cases hlen : bytes.length > Config.romMax
  · rw [if_pos hlen]
    exact h
  · rw [if_neg hlen]
    have hwf := s.writeBytes_wf bytes Config.progBase (by simp only [Config.romMax, Config.progBase] at *; omega) h.memory
    show State.Inv { s.writeBytes Config.progBase bytes with FB := Framebuffer.clear }
    rw [s.writeBytes_frame]
    exact { h with memory := hwf }

theorem State.Inv.perform {s t : State} {c : Call} (h : s.Inv) (ht : perform c s = .next t) : t.Inv := by
  cases c with
  | tick => exact h.tick ht
  | tickTimers =>
    cases ht
    exact { h with }
  | setKey index pressed =>
    cases ht
    rw [s.setKey_frame]
    exact { h with }
  | load bytes =>
    cases ht
    exact h.afterLoad bytes
  | reset =>
    cases ht
    exact s.hostReset_inv

/-- Settles O59: by cases on the scheduled call, on what a tick can do, and on the effects of an instruction. -/
theorem everyStepKeepsTheInvariant : Obligations.EveryStepKeepsTheInvariant := by
  unfold Obligations.EveryStepKeepsTheInvariant
  intro s t h ht
  unfold step nextCall at ht
  split at ht
  case h_1 => exact h.tick ht
  case h_2 c rest _ => exact State.Inv.perform (s := { s with schedule := rest }) { h with } ht

end Sys2Proof.Machine
end

section
/-! PROOFS. Memory (R42, R44, R48, R49, R51): what a write leaves in the list of cells, and that a fetch reads the bytes last
stored. -/

namespace Sys2Proof.Machine

open Sys2Proof

/-! ### The cells a write leaves -/

namespace Memory

theorem erase_of_forall_ne {m : Memory} {a : Nat} (h : ∀ c ∈ m, c.1 ≠ a) : erase m a = m :=
  List.filter_eq_self.mpr fun c hc => bne_iff_ne.mpr (h c hc)

theorem erase_erase (m : Memory) (a : Nat) : erase (erase m a) a = erase m a :=
  erase_of_forall_ne (ne_of_mem_erase m a)

theorem erase_insert {m : Memory} {a : Nat} (v : Byte) (h : ∀ c ∈ m, c.1 ≠ a) : erase (insert a v m) a = m := by
  induction m with
  | nil => simp [insert, erase]
  | cons c m ih =>
    obtain ⟨hc, hm⟩ := List.forall_mem_cons.mp h
    rw [insert]
    split
    case isTrue => rw [erase, List.filter_cons_of_neg (by simp)]; exact erase_of_forall_ne h
    case isFalse => rw [erase, List.filter_cons_of_pos (by simpa using hc)]; exact congrArg (c :: ·) (ih hm)

/-- A write changes no cell of another address, not even its place in the list. -/
theorem erase_write (font : Font) (m : Memory) (a : Nat) (v : Byte) : erase (write font m a v) a = erase m a := by
  rw [write]
  split
  case isTrue => exact erase_erase m a
  case isFalse => exact erase_insert v (ne_of_mem_erase m a)

/-- Of two writes to one address the last alone counts (R49). -/
theorem write_write (font : Font) (m : Memory) (a : Nat) (u v : Byte) :
    write font (write font m a u) a v = write font m a v := by
  simp only [write.eq_def font _ a v, erase_write]

end Memory

theorem State.writeByte_writeByte (s : State) (a : Nat) (u v : Byte) :
    (s.writeByte a u).writeByte a v = s.writeByte a v :=
  congrArg (fun m => { s with MEM := m }) (Memory.write_write s.cfg.font s.MEM a u v)

/-- Settles O33: reading back is the rule of read after write, and a repeated write is the last of two (R48). -/
theorem memoryReadsWhatWasWritten : Obligations.MemoryReadsWhatWasWritten := by
  unfold Obligations.MemoryReadsWhatWasWritten
  exact fun s a v => ⟨rfl, s.readByte_writeByte_same a v, fun b hb => s.readByte_writeByte_ne a b v hb,
    s.writeByte_writeByte a v v⟩

/-- Settles O40: the second store is at another address, so the fetch finds both bytes in memory (R51). -/
theorem fetchSeesEarlierStores : Obligations.FetchSeesEarlierStores := by
  unfold Obligations.FetchSeesEarlierStores
  intro s hi lo hpc
  have hhi : ((s.writeByte s.PC.toNat hi).writeByte (s.PC.toNat + 1) lo).readByte s.PC.toNat = hi := by
    rw [State.readByte_writeByte_ne _ _ _ _ (Nat.ne_of_lt (Nat.lt_succ_self _)), State.readByte_writeByte_same]
  have hlo := (s.writeByte s.PC.toNat hi).readByte_writeByte_same (s.PC.toNat + 1) lo
  rw [State.fetch_ok _ (by exact hpc), State.writeByte_PC, State.writeByte_PC, hhi, hlo, wordOfBytes]

end Sys2Proof.Machine
end

section
/-! PROOFS. The decoder and the encoder (R60, R64, R71), the opcode map (R65) and the invalid words (R67). -/

namespace Sys2Proof

/-! ### The decoder on the encoder's words (R71) -/

/-- One group of cases per format: the decoder reads back the fields that the format laid out. -/
theorem decodeWord_encode {ext : Bool} {i : Instr} (hi : i.wellFormed ext = true) : decodeWord ext (encode i) = .ok i := by
  cases i with
  | cls | ret => rfl
  | jp | call | ldI => simp [encode, decodeWord_op1, decodeWord_op2, decodeWord_opA]
  | jpV0 =>
    have hext : ext = true := hi
    simp [encode, decodeWord_opB, hext]
  | seImm | sneImm | ldImm | addImm | rnd =>
    simp [encode, decodeWord_op3, decodeWord_op4, decodeWord_op6, decodeWord_op7, decodeWord_opC]
  | seReg | sneReg | drw => simp [encode, decodeWord_op5, decodeWord_op9, decodeWord_opD]
  | ldReg | orReg | andReg | xorReg | addReg | sub | subn | shr | shl =>
    simp [encode, decodeWord_op8, decode8_0, decode8_1, decode8_2, decode8_3, decode8_4, decode8_5, decode8_6, decode8_7,
      decode8_E]
  | skp | sknp => simp [encode, decodeWord_opE, decodeE_9E, decodeE_A1]
  | addI | ldF | ldB | storeRegs | loadRegs | ldFromDt | ldDt | ldSt | ldKey =>
    simp [encode, decodeWord_opF, decodeF_07, decodeF_0A, decodeF_15, decodeF_18, decodeF_1E, decodeF_29, decodeF_33,
      decodeF_55, decodeF_65]

/-- Settles O2: the two bytes make the encoder's word again, and the decoder reads it back. -/
theorem decodeOfEncodeIsTheInstruction : Obligations.DecodeOfEncodeIsTheInstruction := by
  unfold Obligations.DecodeOfEncodeIsTheInstruction
  intro ext i rest hi
  show decode ext (highByte (encode i) :: lowByte (encode i) :: rest) = .ok (i, rest)
  rw [decode_cons, wordOfBytes_high_low, decodeWord_encode hi]
  rfl

/-! ### The encoder on what the decoder gives (R71, R69) -/

section
variable {w : Word} {op n : Nibble} {f : Byte}

/-! A word is the format of its own fields, with the fixed fields written as the values they are known to have. -/

theorem formatA_of_fields (hop : opField w = op) : formatA op (nnnField w) = w :=
  hop ▸ (word_eq_op_nnn w).symm

theorem formatI_of_fields (hop : opField w = op) : formatI op (xField w) (nnField w) = w :=
  hop ▸ (word_eq_op_x_nn w).symm

theorem formatX_of_fields (hop : opField w = op) (hf : nnField w = f) : formatX op (xField w) f = w :=
  hf ▸ formatI_of_fields hop

theorem formatR_of_fields (hop : opField w = op) (hn : nField w = n) : formatR op (xField w) (yField w) n = w :=
  hop ▸ hn ▸ (word_eq_op_x_y_n w).symm

end

section
variable {ext : Bool} {w : Word} {i : Instr}

theorem encode_of_decode0 (h : decode0 w = .ok i) : encode i = w := by
  unfold decode0 at h
  split at h
  case isTrue hw => cases h; exact hw.symm
  case isFalse =>
    split at h <;> cases h
    exact (‹w = 0x00EE#16›).symm

theorem encode_of_decode8 (hop : opField w = 0x8#4) (h : decode8 w = .ok i) : encode i = w := by
  unfold decode8 at h
  split at h <;> cases h
  all_goals exact formatR_of_fields hop (BitVec.eq_of_toNat_eq ‹_›)

theorem encode_of_decodeE (hop : opField w = 0xE#4) (h : decodeE w = .ok i) : encode i = w := by
  unfold decodeE at h
  split at h <;> cases h
  all_goals exact formatX_of_fields hop (BitVec.eq_of_toNat_eq ‹_›)

theorem encode_of_decodeF (hop : opField w = 0xF#4) (h : decodeF w = .ok i) : encode i = w := by
  unfold decodeF at h
  split at h <;> cases h
  all_goals exact formatX_of_fields hop (BitVec.eq_of_toNat_eq ‹_›)

/-- By the nibble `op`: the decoder has tested every bit that the encoder fixes. -/
theorem encode_of_decodeWord (h : decodeWord ext w = .ok i) : encode i = w := by
  rcases op_cases (opField w) with hop|hop|hop|hop|hop|hop|hop|hop|hop|hop|hop|hop|hop|hop|hop|hop
  · exact encode_of_decode0 (decodeWord_op0 _ _ hop ▸ h)
  · cases (decodeWord_op1 _ _ hop).symm.trans h; exact formatA_of_fields hop
  · cases (decodeWord_op2 _ _ hop).symm.trans h; exact formatA_of_fields hop
  · cases (decodeWord_op3 _ _ hop).symm.trans h; exact formatI_of_fields hop
  · cases (decodeWord_op4 _ _ hop).symm.trans h; exact formatI_of_fields hop
  · rw [decodeWord_op5 _ _ hop] at h
    split at h <;> cases h
    exact formatR_of_fields hop ‹_›
  · cases (decodeWord_op6 _ _ hop).symm.trans h; exact formatI_of_fields hop
  · cases (decodeWord_op7 _ _ hop).symm.trans h; exact formatI_of_fields hop
  · exact encode_of_decode8 hop (decodeWord_op8 _ _ hop ▸ h)
  · rw [decodeWord_op9 _ _ hop] at h
    split at h <;> cases h
    exact formatR_of_fields hop ‹_›
  · cases (decodeWord_opA _ _ hop).symm.trans h; exact formatA_of_fields hop
  · rw [decodeWord_opB _ _ hop] at h
    split at h <;> cases h
    exact formatA_of_fields hop
  · cases (decodeWord_opC _ _ hop).symm.trans h; exact formatI_of_fields hop
  · cases (decodeWord_opD _ _ hop).symm.trans h; exact formatR_of_fields hop rfl
  · exact encode_of_decodeE hop (decodeWord_opE _ _ hop ▸ h)
  · exact encode_of_decodeF hop (decodeWord_opF _ _ hop ▸ h)

end

/-- Settles O3: the decoder's tests fix every bit that is no operand, and it reads `JP V0` only under `EXT_JP_V0`. -/
theorem encodeOfDecodeIsTheWord : Obligations.EncodeOfDecodeIsTheWord := by
  unfold Obligations.EncodeOfDecodeIsTheWord
  exact fun ext w i h => ⟨encode_of_decodeWord h, Machine.decodeWord_wellFormed h⟩

/-! ### The rows of the opcode map (R65) -/

theorem encode_and_rowMask (i : Instr) : encode i &&& i.rowMask = i.rowMatch := by
  cases i with
  | cls | ret => rfl
  | jp | call | ldI | jpV0 => exact formatA_mask _ _
  | seImm | sneImm | ldImm | addImm | rnd => exact formatI_mask _ _ _
  | drw => exact formatD_mask _ _ _ _
  | seReg | sneReg | ldReg | orReg | andReg | xorReg | addReg | sub | subn | shr | shl => exact formatR_mask _ _ _ _
  | skp | sknp | addI | ldF | ldB | storeRegs | loadRegs | ldFromDt | ldDt | ldSt | ldKey => exact formatX_mask _ _ _

section
variable {w : Word} {op n : Nibble} {f : Byte}

theorem opField_of_and_F000 (h : w &&& 0xF000#16 = op ++ 0#12) : opField w = op := by
  rw [word_eq_op_nnn w, formatA_mask] at h
  simpa only [opField_append] using congrArg opField h

theorem formatX_of_and_F0FF (h : w &&& 0xF0FF#16 = op ++ (0#4 ++ f)) : formatX op (xField w) f = w := by
  rw [word_eq_op_x_nn w] at h
  have h : formatX (opField w) 0 (nnField w) = formatX op 0 f := (formatX_mask _ _ _).symm.trans h
  exact formatX_of_fields (by simpa using congrArg opField h) (by simpa using congrArg nnField h)

theorem formatR_of_and_F00F (h : w &&& 0xF00F#16 = op ++ (0#4 ++ (0#4 ++ n))) : formatR op (xField w) (yField w) n = w := by
  rw [word_eq_op_x_y_n w] at h
  have h : formatR (opField w) 0 0 (nField w) = formatR op 0 0 n := (formatR_mask _ _ _ _).symm.trans h
  exact formatR_of_fields (by simpa using congrArg opField h) (by simpa using congrArg nField h)

end

/-- The instruction of the row of `i` whose operands are the fields of `w` (R7, R61). -/
def Instr.withFields (w : Word) : Instr → Instr
  | .cls => .cls
  | .ret => .ret
  | .jp _ => .jp (nnnField w)
  | .call _ => .call (nnnField w)
  | .seImm _ _ => .seImm (xField w) (nnField w)
  | .sneImm _ _ => .sneImm (xField w) (nnField w)
  | .seReg _ _ => .seReg (xField w) (yField w)
  | .sneReg _ _ => .sneReg (xField w) (yField w)
  | .skp _ => .skp (xField w)
  | .sknp _ => .sknp (xField w)
  | .ldImm _ _ => .ldImm (xField w) (nnField w)
  | .addImm _ _ => .addImm (xField w) (nnField w)
  | .ldReg _ _ => .ldReg (xField w) (yField w)
  | .orReg _ _ => .orReg (xField w) (yField w)
  | .andReg _ _ => .andReg (xField w) (yField w)
  | .xorReg _ _ => .xorReg (xField w) (yField w)
  | .addReg _ _ => .addReg (xField w) (yField w)
  | .sub _ _ => .sub (xField w) (yField w)
  | .subn _ _ => .subn (xField w) (yField w)
  | .shr _ _ => .shr (xField w) (yField w)
  | .shl _ _ => .shl (xField w) (yField w)
  | .ldI _ => .ldI (nnnField w)
  | .addI _ => .addI (xField w)
  | .ldF _ => .ldF (xField w)
  | .ldB _ => .ldB (xField w)
  | .storeRegs _ => .storeRegs (xField w)
  | .loadRegs _ => .loadRegs (xField w)
  | .drw _ _ _ => .drw (xField w) (yField w) (nField w)
  | .ldFromDt _ => .ldFromDt (xField w)
  | .ldDt _ => .ldDt (xField w)
  | .ldSt _ => .ldSt (xField w)
  | .rnd _ _ => .rnd (xField w) (nnField w)
  | .ldKey _ => .ldKey (xField w)
  | .jpV0 _ => .jpV0 (nnnField w)

section
variable (w : Word) (i : Instr)

@[simp] theorem Instr.rowMatch_withFields : (i.withFields w).rowMatch = i.rowMatch := by cases i <;> rfl

@[simp] theorem Instr.rowMask_withFields : (i.withFields w).rowMask = i.rowMask := by cases i <;> rfl

@[simp] theorem Instr.wellFormed_withFields (ext : Bool) : (i.withFields w).wellFormed ext = i.wellFormed ext := by
  cases i <;> rfl

end

/-- A word that carries a row's fixed bits is the word of the row's instruction with the word's own operands: row and
operands together are all of its bits. -/
theorem encode_withFields {w : Word} {i : Instr} (h : w &&& i.rowMask = i.rowMatch) : encode (i.withFields w) = w := by
  cases i with
  | cls | ret => exact ((BitVec.and_allOnes (x := w)).symm.trans h).symm
  | jp | call | ldI | jpV0 => exact formatA_of_fields (opField_of_and_F000 h)
  | seImm | sneImm | ldImm | addImm | rnd => exact formatI_of_fields (opField_of_and_F000 h)
  | drw => exact formatR_of_fields (opField_of_and_F000 h) rfl
  | seReg | sneReg | ldReg | orReg | andReg | xorReg | addReg | sub | subn | shr | shl =>
    exact formatR_of_and_F00F h
  | skp | sknp | addI | ldF | ldB | storeRegs | loadRegs | ldFromDt | ldDt | ldSt | ldKey =>
    exact formatX_of_and_F0FF h

/-- Settles O4: a word with the row's bits is the encoding of an instruction of the row, which the decoder reads back; and a
decoded word is the encoding of its instruction, which carries its row's bits. -/
theorem decodeFollowsTheMap : Obligations.DecodeFollowsTheMap := by
  unfold Obligations.DecodeFollowsTheMap
  intro ext w i hi
  constructor
  · intro h
    have hdec := decodeWord_encode (i := i.withFields w) (by rwa [i.wellFormed_withFields w ext])
    rw [encode_withFields h] at hdec
    exact ⟨i.withFields w, hdec, i.rowMatch_withFields w, i.rowMask_withFields w⟩
  · rintro ⟨j, hj, hmatch, hmask⟩
    rw [← hmatch, ← hmask, ← encode_of_decodeWord hj]
    exact encode_and_rowMask j

/-! ### The invalid words (R67) -/

section
variable {w : Word}

@[simp] theorem isOk_ok (i : Instr) : (Except.ok i : Except Reject Instr).isOk = true := rfl

@[simp] theorem isOk_error (e : Reject) : (Except.error e : Except Reject Instr).isOk = false := rfl

theorem decode0_isOk : (decode0 w).isOk = !(w != 0x00E0#16 && w != 0x00EE#16) := by
  unfold decode0
  split
  case isTrue hcls => simp [hcls]
  case isFalse hcls =>
    split
    case isTrue hret => simp [hret]
    case isFalse hret => simp [hcls, hret]

theorem decode8_isOk : (decode8 w).isOk = !([0x8, 0x9, 0xA, 0xB, 0xC, 0xD, 0xF].contains (nField w).toNat) := by
  rcases op_cases (nField w) with hn|hn|hn|hn|hn|hn|hn|hn|hn|hn|hn|hn|hn|hn|hn|hn <;>
    simp [decode8, hn]

theorem decodeE_isOk : (decodeE w).isOk = [0x9E, 0xA1].contains (nnField w).toNat := by
  unfold decodeE
  split
  case h_1 | h_2 => simp [*]
  case h_3 => simp_all

theorem decodeF_isOk :
    (decodeF w).isOk = [0x07, 0x0A, 0x15, 0x18, 0x1E, 0x29, 0x33, 0x55, 0x65].contains (nnField w).toNat := by
  unfold decodeF
  split
  case h_10 => simp_all
  all_goals simp [*]

/-- By the nibble `op`: in every range of R67's table the decoder and the table make the same test. -/
theorem decodeWord_isOk (ext : Bool) : (decodeWord ext w).isOk = !invalidWord ext w := by
  rcases op_cases (opField w) with hop|hop|hop|hop|hop|hop|hop|hop|hop|hop|hop|hop|hop|hop|hop|hop
  · rw [decodeWord_op0 _ _ hop, decode0_isOk]; simp [invalidWord, hop]
  · rw [decodeWord_op1 _ _ hop]; simp [invalidWord, hop]
  · rw [decodeWord_op2 _ _ hop]; simp [invalidWord, hop]
  · rw [decodeWord_op3 _ _ hop]; simp [invalidWord, hop]
  · rw [decodeWord_op4 _ _ hop]; simp [invalidWord, hop]
  · rw [decodeWord_op5 _ _ hop]; split <;> simp [invalidWord, *]
  · rw [decodeWord_op6 _ _ hop]; simp [invalidWord, hop]
  · rw [decodeWord_op7 _ _ hop]; simp [invalidWord, hop]
  · rw [decodeWord_op8 _ _ hop, decode8_isOk]; simp [invalidWord, hop]
  · rw [decodeWord_op9 _ _ hop]; split <;> simp [invalidWord, *]
  · rw [decodeWord_opA _ _ hop]; simp [invalidWord, hop]
  · rw [decodeWord_opB _ _ hop]; cases ext <;> simp [invalidWord, hop]
  · rw [decodeWord_opC _ _ hop]; simp [invalidWord, hop]
  · rw [decodeWord_opD _ _ hop]; simp [invalidWord, hop]
  · rw [decodeWord_opE _ _ hop, decodeE_isOk]; simp [invalidWord, hop]
  · rw [decodeWord_opF _ _ hop, decodeF_isOk]; simp [invalidWord, hop]

end

/-- Settles O5: the table's words are those with no instruction, and the decoder rejects a word by the word itself. -/
theorem invalidWordsAreTheTablesWords : Obligations.InvalidWordsAreTheTablesWords := by
  unfold Obligations.InvalidWordsAreTheTablesWords
  intro ext w
  have hok := decodeWord_isOk (w := w) ext
  cases hdec : decodeWord ext w with
  | ok i =>
    have hvalid : invalidWord ext w = false := by simpa [hdec] using hok
    exact ⟨fun h => absurd h (by simp [hvalid]), fun _ => ⟨i, rfl⟩⟩
  | error e =>
    have hinvalid : invalidWord ext w = true := by simpa [hdec] using hok
    exact ⟨fun _ => congrArg Except.error (decodeWord_error ext w e hdec), fun h => absurd h (by simp [hinvalid])⟩

/-- Settles O1, by running the decoder on the eleven words. -/
theorem sampleWordsDecode : Obligations.SampleWordsDecode := by
  unfold Obligations.SampleWordsDecode
  decide

end Sys2Proof
end

section
/-! PROOFS. The tick (40_cycle.md R80 to R90): the fetch of a ready machine, the word that `withFetchWord` places, the end of a
wait, and what a tick leaves of the keys and timers. -/

namespace Sys2Proof.Machine

open Sys2Proof

/-! ### The fetch of a ready machine (R83, R84, R86) -/

theorem step_of_schedule_nil {s : State} (h : s.schedule = []) : step s = tick s :=
  (stepPerformsTheScheduledCall s .tick []).2 h

theorem State.ready.step_of_fetch_ok {s : State} {w : Word} (h : s.ready) (hw : s.fetch = .ok w) : step s = s.runWord w := by
  obtain ⟨hsched, hrun, hwait⟩ := h
  rw [step_of_schedule_nil hsched, tick, hrun, hwait, hw]
  rfl

theorem State.ready.step_of_fetch_error {s : State} {f : Fault} (h : s.ready) (hf : s.fetch = .error f) :
    step s = raise f s := by
  obtain ⟨hsched, hrun, hwait⟩ := h
  rw [step_of_schedule_nil hsched, tick, hrun, hwait, hf]
  rfl

theorem State.runWord_of_decode {s : State} {w : Word} {i : Instr} (h : decodeWord s.cfg.extJpV0 w = .ok i) :
    s.runWord w = exec i s.advance := by
  rw [State.runWord, h]

/-- Settles O6: a ready machine fetches the two bytes at `PC`, and runs what they decode to. -/
theorem stepRunsTheDecodedInstruction : Obligations.StepRunsTheDecodedInstruction := by
  unfold Obligations.StepRunsTheDecodedInstruction
  intro s i hready hpc hdec
  rw [hready.step_of_fetch_ok (s.fetch_ok hpc)]
  exact State.runWord_of_decode hdec

/-- Settles O8: the fetch fails at its second byte at 0xFFF and at its first byte above, before `PC` is advanced. -/
theorem fetchOutOfRangeHaltsTheMachine : Obligations.FetchOutOfRangeHaltsTheMachine := by
  unfold Obligations.FetchOutOfRangeHaltsTheMachine
  intro s hready
  constructor
  · intro hpc
    rw [hready.step_of_fetch_error (s.fetch_fault (by omega)), if_pos hpc]
    rfl
  · intro hpc
    rw [hready.step_of_fetch_error (s.fetch_fault (by omega)), if_neg (by omega)]
    rfl

/-! ### The placed word (R44, R83; log entry 6) -/

theorem tableWord_toNat (w : Word) : tableWord 16 w.toNat = w := by
  rw [tableWord, Nat.mod_eq_of_lt w.isLt, BitVec.ofNat_toNat, BitVec.setWidth_eq]

theorem State.fetchBase_le (s : State) : s.fetchBase.toNat ≤ 0xFFE := by
  unfold State.fetchBase
  split
  case isTrue h => exact h
  case isFalse => decide

theorem State.withFetchWord_ready (s : State) (nbits w : Nat) : (s.withFetchWord nbits w).ready := ⟨rfl, rfl, rfl⟩

/-- The bytes at the new `PC` are those of the placed word, high byte first. -/
theorem State.withFetchWord_fetch (s : State) (w : Word) : (s.withFetchWord 16 w.toNat).fetch = .ok w := by
  have hmem (a : Nat) : (s.withFetchWord 16 w.toNat).readByte a = ((s.writeByte s.fetchBase.toNat (highByte w)).writeByte
      (s.fetchBase.toNat + 1) (lowByte w)).readByte a := by
    rw [State.withFetchWord, tableWord_toNat]
    rfl
  have hpc : (s.withFetchWord 16 w.toNat).PC = s.fetchBase := rfl
  rw [State.fetch_ok _ (by rw [hpc]; exact s.fetchBase_le), hpc, hmem, hmem, State.readByte_writeByte_same,
    State.readByte_writeByte_ne _ _ _ _ (Nat.ne_of_lt (Nat.lt_succ_self _)), State.readByte_writeByte_same,
    wordOfBytes_high_low]

/-- Every instruction is well-formed for a machine that enables the extension where its word has the nibble 0xB (R110). -/
theorem wellFormed_or_opField_encode (ext : Bool) (i : Instr) : i.wellFormed (ext || opField (encode i) == 0xB) = true := by
  cases i with
  | jpV0 => simp [encode, Instr.wellFormed]
  | _ => rfl

/-- The placed word decodes to its instruction, with the extension or without: `withFetchWord` enables it where the word
needs it. -/
theorem State.withFetchWord_decode (s : State) {w : Word} {i : Instr} (h : decodeWord true w = .ok i) :
    decodeWord (s.withFetchWord 16 w.toNat).cfg.extJpV0 w = .ok i := by
  obtain rfl : encode i = w := encode_of_decodeWord h
  show decodeWord (s.cfg.extJpV0 || opField (tableWord 16 (encode i).toNat) == 0xB) (encode i) = .ok i
  rw [tableWord_toNat]
  exact decodeWord_encode (wellFormed_or_opField_encode _ i)

/-- Settles O13: the machine is ready, fetches the placed word, and decodes it. -/
theorem placedWordIsRunNext : Obligations.PlacedWordIsRunNext := by
  unfold Obligations.PlacedWordIsRunNext
  intro s w i h
  refine ⟨(s.withFetchWord 16 w.toNat).advance, ?_, rfl⟩
  rw [(s.withFetchWord_ready 16 w.toNat).step_of_fetch_ok (s.withFetchWord_fetch w)]
  exact State.runWord_of_decode (s.withFetchWord_decode h)

/-! ### The end of a wait (R82) -/

theorem anyKeyDown_iff {keys : Keypad} : anyKeyDown keys = true ↔ ∃ k, keys.get k = true := by
  simp [anyKeyDown, keyDown, mem_allKeys]

/-- The keys before the one found, in ascending order, are all up. -/
theorem lowestKey_le {keys : Keypad} {j : Key} (hj : keys.get j = true) : lowestKey keys ≤ j := by
  have hsorted : allKeys.Pairwise (· < ·) := by decide
  obtain ⟨k, hk⟩ : ∃ k, allKeys.find? (keyDown keys) = some k :=
    Option.isSome_iff_exists.mp (List.find?_isSome.mpr ⟨j, mem_allKeys j, hj⟩)
  rw [lowestKey, hk, Option.getD_some]
  obtain ⟨-, before, after, hsplit, hup⟩ := List.find?_eq_some_iff_append.mp hk
  rw [hsplit, List.pairwise_append, List.pairwise_cons] at hsorted
  obtain ⟨-, ⟨hafter, -⟩, -⟩ := hsorted
  have hmem : j ∈ before ∨ j = k ∨ j ∈ after := by simpa [hsplit] using mem_allKeys j
  obtain hb | rfl | ha := hmem
  · exact absurd hj (by simpa [keyDown] using hup j hb)
  · exact le_rfl
  · exact (hafter j ha).le

theorem toNat_keyByte (k : Key) : (keyByte k).toNat = k.val := by
  simp only [keyByte, BitVec.toNat_ofNat]
  omega

theorem State.waitCheck_of_no_key {s : State} (x : Reg) (h : ∀ k, s.KEY.get k = false) : s.waitCheck x = s :=
  if_neg (by simp [anyKeyDown_iff, h])

theorem State.waitCheck_of_key {s : State} (x : Reg) (h : ∃ k, s.KEY.get k = true) :
    s.waitCheck x = { s.setV x (keyByte (pickKey s.cfg.keyPick s.KEY)) with WAIT := none, PC := s.PC + 2 } :=
  if_pos (anyKeyDown_iff.mpr h)

theorem step_of_waiting {s : State} {x : Reg} (hsched : s.schedule = []) (hrun : s.HALTED = false)
    (hwait : s.WAIT = some x) : step s = .next (s.waitCheck x) := by
  rw [step_of_schedule_nil hsched, tick, hrun, hwait]
  rfl

/-- Settles O49: the step is the wait check, which takes the key that `KEY_PICK` chooses of those pressed. -/
theorem waitEndsWithAPressedKey : Obligations.WaitEndsWithAPressedKey := by
  unfold Obligations.WaitEndsWithAPressedKey
  intro x s hsched hrun hwait
  rw [step_of_waiting hsched hrun hwait]
  constructor
  · intro hup
    rw [State.waitCheck_of_no_key x hup]
  · intro hdown
    rw [State.waitCheck_of_key x hdown]
    refine ⟨_, _, rfl, rfl, get_pickKey _ hdown, ?_, ?_, ?_, rfl⟩
    · exact (congrArg BitVec.toNat (s.getV_setV_same x _)).trans (toNat_keyByte _)
    · intro hdefault j hj
      rw [hdefault]
      exact lowestKey_le hj
    · exact fun r hr => s.getV_setV_ne x r _ hr

/-! ### The keys and the timers in a tick (R88) -/

/-- From `s` to `t` no key changes, and a timer changes only to a register's value (R17, R88). -/
def LeavesKeysAndCountsNoTimer (s t : State) : Prop :=
  t.KEY = s.KEY ∧ (t.DT = s.DT ∨ ∃ r, t.DT = s.getV r) ∧ (t.ST = s.ST ∨ ∃ r, t.ST = s.getV r)

theorem Effect.leavesKeysAndCountsNoTimer {s t : State} {i : Instr} (h : Effect s i t) :
    LeavesKeysAndCountsNoTimer s t := by
  induction h with
  | delayTimer x => exact ⟨rfl, .inr ⟨x, rfl⟩, .inl rfl⟩
  | soundTimer x => exact ⟨rfl, .inl rfl, .inr ⟨x, rfl⟩⟩
  | skip => exact ⟨s.skipIf_KEY _, .inl (s.skipIf_DT _), .inl (s.skipIf_ST _)⟩
  | fault _ _ _ ih => exact ih
  | _ => exact ⟨rfl, .inl rfl, .inl rfl⟩

theorem State.waitCheck_leavesKeysAndCountsNoTimer (s : State) (x : Reg) :
    LeavesKeysAndCountsNoTimer s (s.waitCheck x) := by
  obtain heq | heq := s.waitCheck_cases x
  · rw [heq]
    exact ⟨rfl, .inl rfl, .inl rfl⟩
  · rw [heq]
    exact ⟨rfl, .inl rfl, .inl rfl⟩

/-- Settles O12: by cases on what a tick can do, the advance before an instruction leaving keys, timers and registers. -/
theorem tickLeavesKeysAndCountsNoTimer : Obligations.TickLeavesKeysAndCountsNoTimer := by
  unfold Obligations.TickLeavesKeysAndCountsNoTimer
  intro s t h
  cases tick_effect h with
  | waiting => exact s.waitCheck_leavesKeysAndCountsNoTimer _
  | runs _ _ _ _ hi => exact (exec_effect hi).leavesKeysAndCountsNoTimer
  | halted | fetchFault | invalid => exact ⟨rfl, .inl rfl, .inl rfl⟩

end Sys2Proof.Machine
end

section
/-! PROOFS. Control flow (41_control_flow.md R100 to R110): the jumps, the call and the return, and the six skips. -/

namespace Sys2Proof.Machine

open Sys2Proof

/-- Settles O14: the display becomes `Framebuffer.clear`, whose pixels are all off. -/
theorem clsClearsTheDisplay : Obligations.ClsClearsTheDisplay := by
  unfold Obligations.ClsClearsTheDisplay
  exact ⟨rfl, fun _ => ⟨_, rfl, Framebuffer.pixel_clear, rfl⟩⟩

/-! ### Jumps (R102, R110) -/

theorem toNat_zext16 (nnn : Imm12) : (zext16 nnn).toNat = nnn.toNat :=
  BitVec.toNat_setWidth_of_le (by decide)

theorem toNat_zextByte (b : Byte) : (zextByte b).toNat = b.toNat :=
  BitVec.toNat_setWidth_of_le (by decide)

/-- The offset of `JP V0` never wraps (R110, D16): the sum is at most 0x10FE. -/
theorem toNat_zext16_add_zextByte (nnn : Imm12) (b : Byte) : (zext16 nnn + zextByte b).toNat = nnn.toNat + b.toNat := by
  have hlt : (zext16 nnn).toNat + (zextByte b).toNat < 2 ^ 16 := by
    rw [toNat_zext16, toNat_zextByte]
    have := nnn.isLt
    have := b.isLt
    omega
  rw [BitVec.toNat_add_of_lt hlt, toNat_zext16, toNat_zextByte]

/-- Settles O16: the advanced `PC` is overwritten by the zero-extended target. -/
theorem jpSetsPcToTheTarget : Obligations.JpSetsPcToTheTarget := by
  unfold Obligations.JpSetsPcToTheTarget
  exact fun nnn s => ⟨rfl, s.jump (zext16 nnn), rfl, toNat_zext16 nnn, rfl⟩

/-- Settles O21: the zero-extended sum does not wrap. -/
theorem jpV0AddsTheOffset : Obligations.JpV0AddsTheOffset := by
  unfold Obligations.JpV0AddsTheOffset
  exact fun nnn s => ⟨s.jump (zext16 nnn + zextByte (s.getV 0)), rfl, toNat_zext16_add_zextByte nnn (s.getV 0), rfl⟩

/-! ### Call and return (R101, R103) -/

theorem exec_ret_of_pop_ok {s s' : State} {target : Word} (h : s.pop = .ok (target, s')) :
    exec .ret s = .next (s'.jump target) := by
  simp only [exec, execRet, h]

theorem exec_ret_of_pop_error {s : State} {f : Fault} (h : s.pop = .error f) : exec .ret s = raise f s := by
  simp only [exec, execRet, h]

theorem exec_call_of_push_ok {s s' : State} (nnn : Imm12) (h : s.push s.PC = .ok s') :
    exec (.call nnn) s = .next (s'.jump (zext16 nnn)) := by
  simp only [exec, execCall, h]

theorem exec_call_of_push_error {s : State} {f : Fault} (nnn : Imm12) (h : s.push s.PC = .error f) :
    exec (.call nnn) s = raise f s := by
  simp only [exec, execCall, h]

/-- Settles O15: `RET` answers what the pop gives, at either fill level. -/
theorem retPopsIntoPc : Obligations.RetPopsIntoPc := by
  unfold Obligations.RetPopsIntoPc
  refine ⟨rfl, fun s => ⟨fun hempty => ?_, fun k hk => ?_⟩⟩
  · exact exec_ret_of_pop_error (s.pop_empty hempty)
  · exact ⟨_, exec_ret_of_pop_ok (s.pop_ok k hk), rfl, rfl, rfl⟩

/-- Settles O17: `CALL` answers what the push of the advanced `PC` gives, which writes the entry at the fill level only. -/
theorem callPushesTheReturnAddress : Obligations.CallPushesTheReturnAddress := by
  unfold Obligations.CallPushesTheReturnAddress
  refine fun nnn s => ⟨rfl, fun hfull => ?_, fun k hk => ?_⟩
  · exact exec_call_of_push_error nnn (s.push_full s.PC hfull)
  · have hlt : s.SP.val < 16 := hk ▸ k.isLt
    refine ⟨_, exec_call_of_push_ok nnn (s.push_ok s.PC hlt), ?_, fun j hj => ?_, congrArg (· + 1) hk, toNat_zext16 nnn, rfl⟩
    · exact (get_set_stack s.STACK hlt s.PC k).trans (if_pos hk.symm)
    · exact (get_set_stack s.STACK hlt s.PC j).trans (if_neg fun hval => hj (Fin.ext (hval.trans hk)))

/-! ### Skips (R90, R104 to R109) -/

/-- Two skips on opposite tests: where the test holds the first skips and the second goes on, and the other way round where
it fails (R90). -/
theorem exec_skips_on_opposite_tests {s : State} {i j : Instr} {c : Bool} (hi : exec i s = .next (s.skipIf c))
    (hj : exec j s = .next (s.skipIf !c)) :
    (c = true → exec i s = .next { s with PC := s.PC + 2 } ∧ exec j s = .next s) ∧
    (c = false → exec i s = .next s ∧ exec j s = .next { s with PC := s.PC + 2 }) := by
  constructor <;> (rintro rfl; exact ⟨hi, hj⟩)

/-- Settles O18: `SE` and `SNE` are skips on opposite tests of the byte. -/
theorem immediateSkipsCompareTheByte : Obligations.ImmediateSkipsCompareTheByte := by
  unfold Obligations.ImmediateSkipsCompareTheByte
  intro x nn s
  obtain ⟨heq, hne⟩ := exec_skips_on_opposite_tests (s := s) (i := .seImm x nn) (j := .sneImm x nn) rfl rfl
  exact ⟨rfl, rfl, fun h => heq (beq_iff_eq.mpr h), fun h => hne (beq_eq_false_iff_ne.mpr h)⟩

/-- Settles O19: `SE` and `SNE` are skips on opposite tests of the two registers. -/
theorem registerSkipsCompareTheRegisters : Obligations.RegisterSkipsCompareTheRegisters := by
  unfold Obligations.RegisterSkipsCompareTheRegisters
  intro x y s
  obtain ⟨heq, hne⟩ := exec_skips_on_opposite_tests (s := s) (i := .seReg x y) (j := .sneReg x y) rfl rfl
  exact ⟨rfl, rfl, fun h => heq (beq_iff_eq.mpr h), fun h => hne (beq_eq_false_iff_ne.mpr h)⟩

/-- Settles O20: `SKP` and `SKNP` are skips on opposite tests of one key, the one that the low nibble names (D18). -/
theorem keySkipsTestTheNamedKey : Obligations.KeySkipsTestTheNamedKey := by
  unfold Obligations.KeySkipsTestTheNamedKey
  intro x k s hk
  obtain rfl : lowNibble (s.getV x) = k := Fin.ext hk.symm
  exact exec_skips_on_opposite_tests (i := .skp x) (j := .sknp x) rfl rfl

end Sys2Proof.Machine
end

section
/-! PROOFS. Register and ALU operations (42_register_ops.md R120 to R132): the six that write one register and no flag, the five
that write a result and then `VF`, and the values a flag can take. -/

namespace Sys2Proof.Machine

open Sys2Proof

/-! ### Results and flags as numbers (R121, R126, R127) -/

theorem toNat_addResult (a b : Byte) : (addResult a b).toNat = (a.toNat + b.toNat) % 256 :=
  BitVec.toNat_ofNat _ _

theorem toNat_subResult (a b : Byte) : (subResult a b).toNat = (a.toNat + 256 - b.toNat) % 256 :=
  BitVec.toNat_ofNat _ _

theorem flagByte_decide (p : Prop) [Decidable p] : flagByte (decide p) = if p then 1 else 0 := by
  by_cases h : p <;> simp [flagByte, h]

theorem flagByte_carryOut (a b : Byte) : flagByte (carryOut a b) = if 256 ≤ a.toNat + b.toNat then 1 else 0 :=
  flagByte_decide _

theorem flagByte_noBorrow (a b : Byte) : flagByte (noBorrow a b) = if b.toNat ≤ a.toNat then 1 else 0 :=
  flagByte_decide _

/-! ### A flag is 0 or 1 (R132 g) -/

/-- The flag is written after the result, so it stands in `VF` whatever the destination is (R12). -/
theorem State.getV_VF_setResultThenFlag (s : State) (x : Reg) (a b : Byte) : (s.setResultThenFlag x a b).getV VF = b :=
  State.getV_setV_same _ VF b

theorem flag_of_setResultThenFlag {s t : State} {x : Reg} {a : Byte} {f : Bool}
    (h : (.next (s.setResultThenFlag x a (flagByte f)) : Result) = .next t) :
    t.getV VF = 0 ∨ t.getV VF = 1 := by
  obtain rfl := Host.Outcome.next.inj h
  rw [State.getV_VF_setResultThenFlag]
  exact flagByte_cases f

/-- `DRW` writes its flag last, unless it halts before that (R160, R47). -/
theorem flag_of_execDrw {s t : State} {x y : Reg} {n : Nibble} (h : exec (.drw x y n) s = .next t)
    (hrun : t.HALTED = false) :
    t.getV VF = 0 ∨ t.getV VF = 1 := by
  obtain ⟨f, ht⟩ | ⟨k, -, -, ht⟩ := execDrw_cases x y n s t h
  · rw [ht, State.getV_setV_same]
    exact flagByte_cases f
  · rw [ht] at hrun
    cases hrun

/-- Settles O30: five of the six writers set the flag after the result, and `DRW` sets it unless it halts. -/
theorem flagsAreZeroOrOne : Obligations.FlagsAreZeroOrOne := by
  unfold Obligations.FlagsAreZeroOrOne
  intro i s t hi h hrun
  cases i
  case addReg | sub | subn | shr | shl => exact flag_of_setResultThenFlag h
  case drw => exact flag_of_execDrw h hrun
  all_goals cases hi

/-! ### One register written, no flag (R120 to R125) -/

/-- What an instruction that writes `b` to `V[x]` only leaves behind. -/
theorem exec_of_setV {s : State} {i : Instr} {x : Reg} {b : Byte} (h : exec i s = .next (s.setV x b)) :
    ∃ t, exec i s = .next t ∧ t.getV x = b ∧ (∀ r, r ≠ x → t.getV r = s.getV r) ∧ t = { s with V := t.V } :=
  ⟨_, h, s.getV_setV_same x b, fun r => s.getV_setV_ne x r b, rfl⟩

/-- Settles O23: it is one register write. -/
theorem loadImmediateLoadsTheByte : Obligations.LoadImmediateLoadsTheByte := by
  unfold Obligations.LoadImmediateLoadsTheByte
  exact fun _ _ _ => ⟨rfl, exec_of_setV rfl⟩

/-- Settles O24: each is one register write, of the sum modulo 256 and of the other register. -/
theorem copiesAndImmediateAdd : Obligations.CopiesAndImmediateAdd := by
  unfold Obligations.CopiesAndImmediateAdd
  refine fun x y nn s => ⟨rfl, rfl, ?_, exec_of_setV rfl⟩
  obtain ⟨t, ht, hx, hframe⟩ := exec_of_setV (s := s) (i := .addImm x nn) rfl
  exact ⟨t, ht, hx ▸ toNat_addResult (s.getV x) nn, hframe⟩

/-- An instruction that writes to `V[x]` a byte whose bits are `op` of the bits of `V[x]` and `V[y]`, and nothing else. -/
theorem exec_bitwise {s : State} {i : Instr} {x y : Reg} {b : Byte} (op : Bool → Bool → Bool) (h : exec i s = .next (s.setV x b))
    (hb : ∀ k, b.getLsbD k = op ((s.getV x).getLsbD k) ((s.getV y).getLsbD k)) :
    ∃ t, exec i s = .next t ∧ (∀ k < 8, (t.getV x).getLsbD k = op ((s.getV x).getLsbD k) ((s.getV y).getLsbD k)) ∧
      (∀ r, r ≠ x → t.getV r = s.getV r) ∧ t = { s with V := t.V } := by
  obtain ⟨t, ht, hx, hframe⟩ := exec_of_setV h
  exact ⟨t, ht, fun k _ => hx ▸ hb k, hframe⟩

/-- Settles O25: each is one register write, of a byte whose bits are the operation's. -/
theorem bitwiseOperations : Obligations.BitwiseOperations := by
  unfold Obligations.BitwiseOperations
  exact fun _ _ _ => ⟨exec_bitwise or rfl fun _ => BitVec.getLsbD_or, exec_bitwise and rfl fun _ => BitVec.getLsbD_and,
    exec_bitwise xor rfl fun _ => BitVec.getLsbD_xor⟩

/-! ### A result, then a flag (R126 to R130) -/

/-- What an instruction that writes the result `a` to `V[x]` and then the flag `b` to `VF` leaves behind (R12). -/
theorem exec_of_setResultThenFlag {s : State} {i : Instr} {x : Reg} {a b : Byte}
    (h : exec i s = .next (s.setResultThenFlag x a b)) :
    ∃ t, exec i s = .next t ∧ t.getV VF = b ∧ (x ≠ VF → t.getV x = a) ∧
      (∀ r, r ≠ x → r ≠ VF → t.getV r = s.getV r) ∧ t = { s with V := t.V } := by
  refine ⟨_, h, s.getV_VF_setResultThenFlag x a b, fun hx => ?_, fun r hrx hrf => ?_, rfl⟩
  · rw [State.getV_setResultThenFlag, if_neg hx, if_pos rfl]
  · rw [State.getV_setResultThenFlag, if_neg hrf, if_neg hrx]

/-- Settles O26: the result is the sum modulo 256 and the flag the carry out. -/
theorem addStoresTheSumThenTheCarry : Obligations.AddStoresTheSumThenTheCarry := by
  unfold Obligations.AddStoresTheSumThenTheCarry
  intro x y s
  obtain ⟨t, ht, hflag, hresult, hframe⟩ := exec_of_setResultThenFlag (s := s) (i := .addReg x y) rfl
  exact ⟨rfl, t, ht, hflag.trans (flagByte_carryOut _ _), fun hx => hresult hx ▸ toNat_addResult _ _, hframe⟩

/-- An instruction that writes the difference of two bytes and then "no borrow" (R127, R128). -/
theorem exec_subtract {s : State} {i : Instr} {x : Reg} {u v : Byte}
    (h : exec i s = .next (s.setResultThenFlag x (subResult u v) (flagByte (noBorrow u v)))) :
    ∃ t, exec i s = .next t ∧ t.getV VF = (if v.toNat ≤ u.toNat then 1 else 0) ∧
      (x ≠ VF → (t.getV x).toNat = (u.toNat + 256 - v.toNat) % 256) ∧
      (∀ r, r ≠ x → r ≠ VF → t.getV r = s.getV r) ∧ t = { s with V := t.V } := by
  obtain ⟨t, ht, hflag, hresult, hframe⟩ := exec_of_setResultThenFlag h
  exact ⟨t, ht, hflag.trans (flagByte_noBorrow u v), fun hx => hresult hx ▸ toNat_subResult u v, hframe⟩

/-- Settles O27: `SUB` and `SUBN` are one subtraction with the operands either way round. -/
theorem subtractStoresTheDifferenceThenNoBorrow : Obligations.SubtractStoresTheDifferenceThenNoBorrow := by
  unfold Obligations.SubtractStoresTheDifferenceThenNoBorrow
  exact fun _ _ _ => ⟨rfl, rfl, exec_subtract rfl, exec_subtract rfl⟩

/-- The parameter `SHIFT_SRC` names the source of a shift (R5, R129, D14). -/
theorem State.shiftSource_eq {s : State} {x y : Reg} {src : Byte}
    (h : (s.cfg.shiftSrc = .vx ∧ src = s.getV x) ∨ (s.cfg.shiftSrc = .vy ∧ src = s.getV y)) : s.shiftSource x y = src := by
  obtain ⟨hcfg, rfl⟩ | ⟨hcfg, rfl⟩ := h <;> rw [State.shiftSource, hcfg]

/-- Settles O28: under either setting both shifts read `shiftSource`, and the result and the bit out are those of that byte. -/
theorem shiftsUnderBothSettings : Obligations.ShiftsUnderBothSettings := by
  unfold Obligations.ShiftsUnderBothSettings
  intro x y s src hsrc
  obtain rfl := State.shiftSource_eq hsrc
  constructor
  · obtain ⟨t, ht, hflag, hresult, hframe⟩ := exec_of_setResultThenFlag (s := s) (i := .shr x y) rfl
    exact ⟨t, ht, hflag ▸ flagByte_shrOut _, fun hx => hresult hx ▸ shrResult_toNat _, hframe⟩
  · obtain ⟨t, ht, hflag, hresult, hframe⟩ := exec_of_setResultThenFlag (s := s) (i := .shl x y) rfl
    exact ⟨t, ht, hflag ▸ flagByte_shlOut _, fun hx => hresult hx ▸ shlResult_toNat _, hframe⟩

end Sys2Proof.Machine
end

section
/-! PROOFS. Index register and memory (43_index_memory.md R140 to R146): the three loads of `I`, and the stores and loads at
`I`, whether they stay in memory or leave it midway (R47, D9). -/

namespace Sys2Proof.Machine

open Sys2Proof

/-! ### Loads of the index register (R140, R141, R142) -/

theorem toNat_glyphAddress (d : Fin 16) : (glyphAddress d).toNat = 5 * d.val := by
  have := d.isLt
  simp only [glyphAddress, BitVec.toNat_ofNat, Config.fontBase, Config.fontStride]
  omega

/-- Settles O31: the new `I` is the zero-extended operand, or the address of the glyph. -/
theorem indexLoads : Obligations.IndexLoads := by
  unfold Obligations.IndexLoads
  exact fun nnn x s => ⟨rfl, rfl, ⟨_, rfl, toNat_zext16 nnn, rfl⟩, ⟨_, rfl, toNat_glyphAddress (lowNibble (s.getV x)), rfl⟩⟩

/-- Settles O32: a sum of words is modulo 65536, and zero extension keeps the byte's value. -/
theorem indexAddWrapsAtSixteenBits : Obligations.IndexAddWrapsAtSixteenBits := by
  unfold Obligations.IndexAddWrapsAtSixteenBits
  intro x s
  have hsum : (s.I + zextByte (s.getV x)).toNat = (s.I.toNat + (s.getV x).toNat) % 65536 := by
    rw [BitVec.toNat_add, toNat_zextByte]
  exact ⟨_, rfl, hsum, rfl⟩

/-! ### Memory after a store (R46, R47) -/

section
variable {a : Nat} {bs : List Byte} (s : State)

theorem State.readByte_writeBytes_of_lt {j : Nat} (hj : j < bs.length) : (s.writeBytes a bs).readByte (a + j) = bs[j] := by
  rw [State.readByte_writeBytes, dif_pos (by omega)]
  simp only [Nat.add_sub_cancel_left]

theorem State.readByte_writeBytes_of_outside {b : Nat} (hb : b < a ∨ a + bs.length ≤ b) :
    (s.writeBytes a bs).readByte b = s.readByte b := by
  rw [State.readByte_writeBytes, dif_neg (by omega)]

/-- What a store that stays in memory leaves behind. -/
theorem storeBytes_stores_all (hfit : a + bs.length ≤ 0x1000) :
    ∃ t, storeBytes a bs s = .next t ∧ (∀ (j : Nat) (hj : j < bs.length), t.readByte (a + j) = bs[j]) ∧
      (∀ b, (b < a ∨ a + bs.length ≤ b) → t.readByte b = s.readByte b) ∧ t = { s with MEM := t.MEM } :=
  ⟨_, storeBytes_ok bs a s hfit, fun _ => s.readByte_writeBytes_of_lt, fun _ => s.readByte_writeBytes_of_outside,
    s.writeBytes_frame bs a⟩

/-- What a store that leaves memory at its byte `k` leaves behind (D9). -/
theorem storeBytes_stores_before {k : Nat} (hk : k < bs.length) (hfirst : k = 0 ∨ a + k = 0x1000) (hout : 0xFFF < a + k) :
    ∃ t, storeBytes a bs s = .next t ∧ (∀ (j : Nat) (hj : j < k), t.readByte (a + j) = bs[j]) ∧
      (∀ b, (b < a ∨ a + k ≤ b) → t.readByte b = s.readByte b) ∧
      t = { s with MEM := t.MEM, HALTED := true, FAULT := some (.memoryOutOfRange (a + k)) } := by
  have hlen : (bs.take k).length = k := List.length_take_of_le hk.le
  refine ⟨_, storeBytes_fault bs a s k hk (hfirst.imp_right Nat.le_of_eq) hout, fun j hj => ?_, fun b hb => ?_, ?_⟩
  · have hread : (s.writeBytes a (bs.take k)).readByte (a + j) = (bs.take k)[j] := s.readByte_writeBytes_of_lt (hlen.symm ▸ hj)
    exact hread.trans List.getElem_take
  · exact s.readByte_writeBytes_of_outside (hlen.symm ▸ hb)
  · exact congrArg (fun u : State => { u with HALTED := true, FAULT := some (.memoryOutOfRange (a + k)) })
      (s.writeBytes_frame (bs.take k) a)

end

/-! ### Decimal digits (R143, D23) -/

@[simp] theorem length_bcdDigits (v : Byte) : (bcdDigits v).length = 3 := rfl

/-- Each digit fits its byte. -/
theorem toNat_bcdDigits (v : Byte) :
    (bcdDigits v)[0].toNat = v.toNat / 100 ∧ (bcdDigits v)[1].toNat = v.toNat / 10 % 10 ∧
      (bcdDigits v)[2].toNat = v.toNat % 10 := by
  have := v.isLt
  simp only [bcdDigits, List.getElem_cons_zero, List.getElem_cons_succ, BitVec.toNat_ofNat]
  omega

/-- Settles O34: the three digits are stored at consecutive addresses, all in memory. -/
theorem bcdStoresThreeDigits : Obligations.BcdStoresThreeDigits := by
  unfold Obligations.BcdStoresThreeDigits
  intro x s hfit
  obtain ⟨hundreds, tens, ones⟩ := toNat_bcdDigits (s.getV x)
  obtain ⟨t, ht, hstored, hkept, hframe⟩ :=
    storeBytes_stores_all (a := s.I.toNat) (bs := bcdDigits (s.getV x)) s (by rw [length_bcdDigits]; omega)
  refine ⟨t, ht, ?_, ?_, ?_, hkept, hframe⟩
  · exact hstored 0 (by simp) ▸ hundreds
  · exact hstored 1 (by simp) ▸ tens
  · exact hstored 2 (by simp) ▸ ones

/-- Settles O35: the store of the three digits faults at its byte `k`. -/
theorem bcdFaultsMidway : Obligations.BcdFaultsMidway := by
  unfold Obligations.BcdFaultsMidway
  intro x s k hk hfirst hout
  obtain ⟨hundreds, tens, -⟩ := toNat_bcdDigits (s.getV x)
  obtain ⟨t, ht, hstored, hkept, hframe⟩ :=
    storeBytes_stores_before (bs := bcdDigits (s.getV x)) s (Nat.lt_succ_of_le hk) hfirst hout
  refine ⟨t, ht, fun h0 => ?_, fun h1 => ?_, hkept, hframe⟩
  · exact hstored 0 h0 ▸ hundreds
  · exact hstored 1 h1 ▸ tens

/-! ### The registers stored (R144) -/

theorem length_map_regsUpTo (x : Reg) (f : Reg → Byte) : ((regsUpTo x).map f).length = x.val + 1 := by
  rw [List.length_map, length_regsUpTo]

theorem getElem_map_regsUpTo {x r : Reg} (f : Reg → Byte) (hr : r.val < ((regsUpTo x).map f).length) :
    ((regsUpTo x).map f)[r.val] = f r := by
  rw [List.getElem_map]
  exact congrArg f (Fin.ext (getElem_regsUpTo x r.val _))

/-- Settles O36: byte `r` of the store is `V[r]`. -/
theorem blockStoreWritesTheRegisters : Obligations.BlockStoreWritesTheRegisters := by
  unfold Obligations.BlockStoreWritesTheRegisters
  intro x s hfit
  have hlen := length_map_regsUpTo x s.getV
  obtain ⟨t, ht, hstored, hkept, hframe⟩ :=
    storeBytes_stores_all (a := s.I.toNat) (bs := (regsUpTo x).map s.getV) s (by omega)
  refine ⟨t, ht, fun r hr => ?_, fun a ha => hkept a (by omega), hframe⟩
  exact (hstored r.val (hlen ▸ Nat.lt_succ_of_le hr)).trans (getElem_map_regsUpTo s.getV _)

/-- Settles O37: the store of the registers faults at its byte `k`, which is `V[k]`. -/
theorem blockStoreFaultsMidway : Obligations.BlockStoreFaultsMidway := by
  unfold Obligations.BlockStoreFaultsMidway
  intro x k s hk hfirst hout
  have hlen := length_map_regsUpTo x s.getV
  obtain ⟨t, ht, hstored, hkept, hframe⟩ :=
    storeBytes_stores_before (bs := (regsUpTo x).map s.getV) s (hlen ▸ Nat.lt_succ_of_le hk) hfirst hout
  exact ⟨t, ht, fun r hr => (hstored r.val hr).trans (getElem_map_regsUpTo s.getV _), hkept, hframe⟩

/-! ### The registers loaded (R145) -/

/-- Settles O38: the block holds the registers up to `x`, and each is loaded from its own address. -/
theorem blockLoadReadsTheRegisters : Obligations.BlockLoadReadsTheRegisters := by
  unfold Obligations.BlockLoadReadsTheRegisters
  intro x s hfit
  have hin : ∀ r ∈ regsUpTo x, s.I.toNat + r.val ≤ 0xFFF := fun r hr => by
    have := (mem_regsUpTo x r).mp hr
    omega
  obtain ⟨t, ht, hframe, hreg⟩ := loadFrom_ok s.I.toNat (regsUpTo x) s hin
  refine ⟨t, ht, fun r hr => ?_, fun r hr => ?_, hframe⟩
  · rw [hreg, if_pos ((mem_regsUpTo x r).mpr hr)]
  · rw [hreg, if_neg (mt (mem_regsUpTo x r).mp (not_le.mpr hr))]

/-- Settles O39: the block cut at register `k` loads the registers before it and faults there. -/
theorem blockLoadFaultsMidway : Obligations.BlockLoadFaultsMidway := by
  unfold Obligations.BlockLoadFaultsMidway
  intro x k s hk hfirst hout
  obtain ⟨rest, hsplit⟩ := regsUpTo_split x k hk
  have hin : ∀ r ∈ allRegs.take k.val, s.I.toNat + r.val ≤ 0xFFF := fun r hr => by
    have : r.val < k.val := (mem_take_allRegs k r).mp hr
    omega
  obtain ⟨u, hu, hframe, hreg⟩ := loadFrom_fault s.I.toNat (allRegs.take k.val) s k rest hin hout
  rw [← hsplit] at hu
  refine ⟨_, hu, fun r hr => ?_, fun r hr => ?_, ?_⟩
  · exact (hreg r).trans (if_pos ((mem_take_allRegs k r).mpr hr))
  · exact (hreg r).trans (if_neg (mt (mem_take_allRegs k r).mp (not_lt.mpr hr)))
  · exact congrArg (fun v : State => { v with HALTED := true, FAULT := some (.memoryOutOfRange (s.I.toNat + k.val)) }) hframe

end Sys2Proof.Machine
end

section
/-! PROOFS. The sprite draw (44_display.md R160 to R162): a draw that stays in memory, a draw cut at a row outside it (R47, D9),
and a draw repeated over its own result. -/

namespace Sys2Proof.Machine

open Sys2Proof

/-! ### What `DRW` does (R160) -/

section
variable (x y : Reg) (n : Nibble) (s : State)

theorem rowTargets_zero (x0 y0 : Byte) (m : Nat) : s.rowTargets x0 y0 0 (0 + m) = s.targets x0 y0 m :=
  funext₂ fun r c => propext (targets_iff s x0 y0 m r c).symm

theorem toNat_nibble_le : n.toNat ≤ 32 := by
  have := n.isLt
  omega

/-- What a draw that stays in memory leaves behind. -/
theorem exec_drw_fits (hfit : n.toNat = 0 ∨ s.I.toNat + n.toNat ≤ 0x1000) :
    ∃ (fb : Framebuffer) (f : Bool), exec (.drw x y n) s = .next ({ s with FB := fb }.setV VF (flagByte f)) ∧
      s.FB.toggledAt fb (s.targets (s.getV x) (s.getV y) n.toNat) ∧
      (f = true ↔ ∃ r c, s.targets (s.getV x) (s.getV y) n.toNat r c ∧ s.FB.pixel r c = true) := by
  obtain ⟨fb, f, hdraw, htoggled, hflag⟩ :=
    drawRows_ok (s.getV x) (s.getV y) n.toNat 0 false s (toNat_nibble_le n) hfit
  simp only [rowTargets_zero, Bool.false_eq_true, false_or] at htoggled hflag
  exact ⟨fb, f, hdraw, htoggled, hflag⟩

/-- What a draw whose row `k` lies outside memory leaves behind (D9). -/
theorem exec_drw_faults {k : Nat} (hk : k < n.toNat) (hfirst : k = 0 ∨ s.I.toNat + k = 0x1000) (hout : 0xFFF < s.I.toNat + k) :
    ∃ fb : Framebuffer, exec (.drw x y n) s = raise (.memoryOutOfRange (s.I.toNat + k)) { s with FB := fb } ∧
      s.FB.toggledAt fb (s.targets (s.getV x) (s.getV y) k) := by
  obtain ⟨fb, hdraw, htoggled⟩ :=
    drawRows_fault (s.getV x) (s.getV y) k n.toNat 0 false s hk (toNat_nibble_le n) (hfirst.imp_right Nat.le_of_eq) hout
  rw [rowTargets_zero] at htoggled
  rw [Nat.zero_add] at hdraw
  exact ⟨fb, hdraw, htoggled⟩

end

/-- The value of a flag that says whether `p` holds. -/
theorem flagByte_of_iff {f : Bool} {p : Prop} (h : f = true ↔ p) : (p → flagByte f = 1) ∧ (¬ p → flagByte f = 0) := by
  constructor
  · intro hp
    rw [h.mpr hp]
    rfl
  · intro hp
    rw [Bool.eq_false_iff.mpr (mt h.mp hp)]
    rfl

/-- Settles O41: the draw stays in memory, and `VF` is the flag it returns. -/
theorem drawTogglesTheTargetedPixels : Obligations.DrawTogglesTheTargetedPixels := by
  unfold Obligations.DrawTogglesTheTargetedPixels
  intro x y n s hfit
  obtain ⟨fb, f, hdraw, htoggled, hflag⟩ := exec_drw_fits x y n s hfit
  obtain ⟨hone, hzero⟩ := flagByte_of_iff hflag
  have hVF : ({ s with FB := fb }.setV VF (flagByte f)).getV VF = flagByte f := State.getV_setV_same _ VF _
  exact ⟨_, hdraw, htoggled, fun h => hVF.trans (hone h), fun h => hVF.trans (hzero h),
    fun r => State.getV_setV_ne _ VF r _, rfl⟩

/-- Settles O42: the draw is cut at its row `k`, before the flag is written. -/
theorem drawFaultsMidway : Obligations.DrawFaultsMidway := by
  unfold Obligations.DrawFaultsMidway
  intro x y n s k hk hfirst hout
  obtain ⟨fb, hdraw, htoggled⟩ := exec_drw_faults x y n s hk hfirst hout
  exact ⟨_, hdraw, htoggled, rfl⟩

/-! ### The toggle property (R161) -/

/-- The targeted pixels are determined by `I` and the bytes of the sprite. -/
theorem targets_congr {s u : State} (x0 y0 : Byte) {n : Nat} (hI : u.I = s.I)
    (hbytes : ∀ k < n, u.readByte (s.I.toNat + k) = s.readByte (s.I.toNat + k)) : u.targets x0 y0 n = s.targets x0 y0 n := by
  funext r c
  unfold State.targets
  rw [hI]
  exact propext (exists_congr fun row => and_congr_right fun hrow => by rw [hbytes row hrow])

/-- A byte other than 0 has a 1 bit. -/
theorem exists_bit_iff_ne_zero (b : Byte) : (∃ col < 8, b.getLsbD (7 - col) = true) ↔ b ≠ 0 := by
  revert b
  decide

/-- A sprite with a 1 bit targets a pixel, and one with none targets none. -/
theorem exists_targets_iff (s : State) (x0 y0 : Byte) (n : Nat) :
    (∃ r c, s.targets x0 y0 n r c) ↔ ∃ k < n, s.readByte (s.I.toNat + k) ≠ 0 := by
  simp only [← exists_bit_iff_ne_zero]
  constructor
  · rintro ⟨r, c, row, hrow, col, hcol, hbit, -⟩
    exact ⟨row, hrow, col, hcol, hbit⟩
  · rintro ⟨row, hrow, col, hcol, hbit⟩
    exact ⟨pixelRow y0 row, pixelCol x0 col, row, hrow, col, hcol, hbit, rfl, rfl⟩

section
variable {fb gb kb : Framebuffer} {T : Fin 32 → Fin 64 → Prop} (h : fb.toggledAt gb T)
include h

/-- Toggling the same pixels twice restores the display. -/
theorem Framebuffer.toggledAt_twice (h' : gb.toggledAt kb T) : kb = fb := by
  refine Framebuffer.ext_pixel _ _ fun r c => ?_
  by_cases ht : T r c
  · rw [(h' r c).1 ht, (h r c).1 ht, Bool.not_not]
  · rw [(h' r c).2 ht, (h r c).2 ht]

/-- After a toggle, a targeted pixel is on exactly where it was off. -/
theorem Framebuffer.toggledAt_exists_on_iff : (∃ r c, T r c ∧ gb.pixel r c = true) ↔ ∃ r c, T r c ∧ fb.pixel r c = false := by
  refine exists₂_congr fun r c => and_congr_right fun ht => ?_
  rw [(h r c).1 ht, Bool.not_eq_true']

end

/-- Settles O43: both draws target the same pixels, so the second toggles back what the first toggled, and finds on what the
first turned on. -/
theorem drawingTwiceRestoresTheDisplay : Obligations.DrawingTwiceRestoresTheDisplay := by
  unfold Obligations.DrawingTwiceRestoresTheDisplay
  intro x y n s hfit
  obtain ⟨fb, f, hdraw, htoggled, hflag⟩ := exec_drw_fits x y n s hfit
  refine ⟨_, hdraw, fun u hFB hx hy hI hbytes => ?_⟩
  obtain ⟨gb, g, hdraw', htoggled', hflag'⟩ := exec_drw_fits x y n u (hI ▸ hfit)
  replace hFB : u.FB = fb := hFB
  rw [hx, hy, targets_congr _ _ hI hbytes, hFB] at htoggled' hflag'
  have hsecond := hflag'.trans (Framebuffer.toggledAt_exists_on_iff htoggled)
  obtain ⟨hone, hzero⟩ := flagByte_of_iff hsecond
  refine ⟨_, hdraw', Framebuffer.toggledAt_twice htoggled htoggled', ?_⟩
  simp only [State.getV_setV_same]
  refine ⟨hone, hzero, fun hbit hclear => hone ?_, fun hblank => ?_⟩
  · obtain ⟨r, c, ht⟩ := (exists_targets_iff s _ _ _).mpr hbit
    exact ⟨r, c, ht, hclear r c ht⟩
  · have hnone : ∀ r c, ¬ s.targets (s.getV x) (s.getV y) n.toNat r c := fun r c ht => by
      obtain ⟨k, hk, hne⟩ := (exists_targets_iff s _ _ _).mp ⟨r, c, ht⟩
      exact hne (hblank k hk)
    exact ⟨(flagByte_of_iff hflag).2 fun ⟨r, c, ht, _⟩ => hnone r c ht, hzero fun ⟨r, c, ht, _⟩ => hnone r c ht⟩

end Sys2Proof.Machine
end

section
/-! PROOFS. Timers, random byte and key-wait (45_timers_random_key.md R170 to R176): the transfers, `RND`, the entry into the
wait, and that an instruction runs the same whatever the sound timer and the random source hold (R173, R176). -/

namespace Sys2Proof.Machine

open Sys2Proof

/-! ### Timer transfers (R170, R171, R172) -/

theorem State.soundActive_iff (s : State) : s.soundActive = true ↔ s.ST ≠ 0 := bne_iff_ne

/-- Settles O44: one register write, and two writes of a timer, of which the second is what `soundActive` reads. -/
theorem timerTransfers : Obligations.TimerTransfers := by
  unfold Obligations.TimerTransfers
  exact fun _ _ => ⟨rfl, rfl, rfl, exec_of_setV rfl, ⟨_, rfl, rfl, rfl⟩, ⟨_, rfl, rfl, State.soundActive_iff _, rfl⟩⟩

/-! ### The random byte (R174) -/

theorem State.drawRnd_fst (s : State) : s.drawRnd.1 = s.rndIn.headD (Config.freeRnd s.draws) := by
  rw [State.drawRnd]
  cases s.rndIn <;> rfl

/-- `RND` with its draw written out: the byte drawn, and the random source without it. -/
theorem exec_rnd (x : Reg) (nn : Byte) (s : State) :
    exec (.rnd x nn) s = .next (({ s with rndIn := s.rndIn.tail, draws := s.draws + 1 } : State).setV x
      (s.rndIn.headD (Config.freeRnd s.draws) &&& nn)) := by
  rw [exec, execRnd, State.drawRnd_frame, State.drawRnd_fst]

/-- Settles O45: the byte is the first one supplied, or the free one where none is. -/
theorem rndMasksOneRandomByte : Obligations.RndMasksOneRandomByte := by
  unfold Obligations.RndMasksOneRandomByte
  intro x nn s
  refine ⟨_, s.rndIn.headD (Config.freeRnd s.draws), exec_rnd x nn s, State.getV_setV_same _ x _,
    fun r hr => State.getV_setV_ne _ x r _ hr, fun b bs hsupplied => ?_, fun hnone => ?_, rfl, rfl⟩
  · simp [hsupplied]
  · simp [hnone]

/-! ### The entry into the wait (R175, D19) -/

/-- Settles O48: the instruction takes back the advance of the tick that fetched it. -/
theorem keyWaitKeepsPc : Obligations.KeyWaitKeepsPc := by
  unfold Obligations.KeyWaitKeepsPc
  refine fun x s => ⟨rfl, fun hready hpc hdec => ?_⟩
  have hback : s.PC + 2 - 2 = s.PC := BitVec.add_sub_cancel s.PC 2
  calc step s
    _ = exec (.ldKey x) { s with PC := s.PC + 2 } := stepRunsTheDecodedInstruction s _ hready hpc hdec
    _ = .next { s with WAIT := some x, PC := s.PC + 2 - 2 } := rfl
    _ = .next { s with WAIT := some x } := by rw [hback]

/-! ### Instructions ignore the sound timer and the random source (R173, R176) -/

/-- `s` with the sound timer and the random source changed by any functions, and all else kept. -/
def State.adjust (sound : Byte → Byte) (supply : List Byte → List Byte) (count : Nat → Nat) (s : State) : State :=
  { s with ST := sound s.ST, rndIn := supply s.rndIn, draws := count s.draws }

/-- `f` applied to the next state of a result. -/
def mapNext (f : State → State) : Result → Result
  | .next s => .next (f s)
  | .fault r => .fault r
  | .refused r => .refused r

section
variable (sound : Byte → Byte) (supply : List Byte → List Byte) (count : Nat → Nat)

theorem State.adjust_PC (s : State) : (s.adjust sound supply count).PC = s.PC := rfl

theorem State.ea_adjust (s : State) (k : Nat) : (s.adjust sound supply count).ea k = s.ea k := rfl

theorem State.memRead_adjust (s : State) (a : Nat) : (s.adjust sound supply count).memRead a = s.memRead a := rfl

theorem State.memWrite_adjust (s : State) (a : Nat) (v : Byte) :
    (s.adjust sound supply count).memWrite a v = (s.memWrite a v).map (State.adjust sound supply count) := by
  rw [State.memWrite, State.memWrite, apply_ite (Except.map _)]
  rfl

theorem State.push_adjust (s : State) (v : Word) :
    (s.adjust sound supply count).push v = (s.push v).map (State.adjust sound supply count) := by
  rw [State.push, State.push, apply_dite (Except.map _)]
  rfl

theorem State.pop_adjust (s : State) :
    (s.adjust sound supply count).pop = s.pop.map (Prod.map id (State.adjust sound supply count)) := by
  rw [State.pop, State.pop, apply_dite (Except.map _)]
  rfl

theorem State.skipIf_adjust (s : State) (c : Bool) :
    (s.adjust sound supply count).skipIf c = (s.skipIf c).adjust sound supply count := by
  cases c <;> rfl

theorem storeBytes_adjust (bs : List Byte) : ∀ (a : Nat) (s : State),
    storeBytes a bs (s.adjust sound supply count) = mapNext (State.adjust sound supply count) (storeBytes a bs s) := by
  induction bs with
  | nil => exact fun _ _ => rfl
  | cons b bs ih =>
    intro a s
    rw [storeBytes, storeBytes, State.memWrite_adjust]
    cases s.memWrite a b with
    | ok t => exact ih (a + 1) t
    | error f => rfl

theorem loadFrom_adjust (base : Nat) (rs : List Reg) : ∀ s : State,
    loadFrom base rs (s.adjust sound supply count) = mapNext (State.adjust sound supply count) (loadFrom base rs s) := by
  induction rs with
  | nil => exact fun _ => rfl
  | cons r rs ih =>
    intro s
    rw [loadFrom, loadFrom, State.memRead_adjust]
    cases s.memRead (base + r.val) with
    | ok b => exact ih (s.setV r b)
    | error f => rfl

theorem drawRows_adjust (x0 y0 : Byte) (left : Nat) : ∀ (row : Nat) (hit : Bool) (s : State),
    drawRows x0 y0 left row hit (s.adjust sound supply count) =
      mapNext (State.adjust sound supply count) (drawRows x0 y0 left row hit s) := by
  induction left with
  | zero => exact fun _ _ _ => rfl
  | succ left ih =>
    intro row hit s
    rw [drawRows, drawRows, State.ea_adjust, State.memRead_adjust]
    cases s.memRead (s.ea row) with
    | ok b =>
      exact ih (row + 1) (drawRow (pixelRow y0 row) x0 b (s.FB, hit)).2
        { s with FB := (drawRow (pixelRow y0 row) x0 b (s.FB, hit)).1 }
    | error f => rfl

/-- An instruction does the same from an adjusted state, provided `LD ST` finds the sound timer and `RND` the random source
as they were. -/
theorem exec_adjust {i : Instr} (s : State) (hsound : (∀ x, i ≠ .ldSt x) ∨ sound = id)
    (hrnd : (∀ x nn, i ≠ .rnd x nn) ∨ (supply = id ∧ count = id)) :
    exec i (s.adjust sound supply count) = mapNext (State.adjust sound supply count) (exec i s) := by
  cases i
  case ret =>
    rw [exec, exec, execRet, execRet, State.pop_adjust]
    cases s.pop <;> rfl
  case call =>
    rw [exec, exec, execCall, execCall, State.adjust_PC, State.push_adjust]
    cases s.push s.PC <;> rfl
  case seImm | sneImm | seReg | sneReg | skp | sknp => exact congrArg Host.Outcome.next (s.skipIf_adjust ..)
  case ldB | storeRegs => exact storeBytes_adjust ..
  case loadRegs => exact loadFrom_adjust ..
  case drw => exact drawRows_adjust ..
  case ldSt x =>
    obtain hne | rfl := hsound
    · exact absurd rfl (hne x)
    · rfl
  case rnd x nn =>
    obtain hne | ⟨rfl, rfl⟩ := hrnd
    · exact absurd rfl (hne x nn)
    · rw [exec_rnd, exec_rnd]
      rfl
  all_goals rfl

end

/-- Settles O46: it is the adjustment that replaces the random source and keeps the sound timer. -/
theorem onlyRndDependsOnTheRandomSource : Obligations.OnlyRndDependsOnTheRandomSource := by
  unfold Obligations.OnlyRndDependsOnTheRandomSource
  intro i s t bytes count hi h
  have hadj := exec_adjust id (fun _ => bytes) (fun _ => count) s (.inr rfl) (.inl hi)
  rw [h] at hadj
  exact hadj

/-- Settles O47: for all but `LD ST` it is the adjustment that replaces the sound timer and keeps the random source, and
`LD ST` overwrites the sound timer unread. -/
theorem noInstructionReadsTheSoundTimer : Obligations.NoInstructionReadsTheSoundTimer := by
  unfold Obligations.NoInstructionReadsTheSoundTimer
  intro i s t v h
  constructor
  · intro hi
    have hadj := exec_adjust (fun _ => v) id id s (.inl hi) (.inr ⟨rfl, rfl⟩)
    rw [h] at hadj
    exact hadj
  · rintro x rfl
    exact h

end Sys2Proof.Machine
end

section
/-! PROOFS. Exceptions and agents (60_exceptions.md R200 to R226): the timer's and the host's calls, the halt on an invalid
word, what a halted machine still does, and the next state that every step answers. -/

namespace Sys2Proof.Machine

open Sys2Proof

/-! ### The timer's call and the keys (R214, R217) -/

/-- Settles O51: each timer is counted down by `countDown`. -/
theorem timerTickSaturates : Obligations.TimerTickSaturates := by
  unfold Obligations.TimerTickSaturates
  exact fun s => ⟨s.tickTimers, rfl, countDown_toNat s.DT, countDown_toNat s.ST, rfl⟩

theorem State.setKey_of_ge (s : State) (p : Bool) {index : Nat} (h : 16 ≤ index) : s.setKey index p = s :=
  dif_neg (Nat.not_lt.mpr h)

theorem State.get_setKey (s : State) (k j : Key) (p : Bool) :
    (s.setKey k.val p).KEY.get j = if j = k then p else s.KEY.get j := by
  rw [State.setKey, dif_pos k.isLt, Vector.get_eq_getElem, Vector.getElem_set, Vector.get_eq_getElem]
  simp only [Fin.val_inj, eq_comm]

/-- Settles O52: the array write changes the flag at the index, and is not made above 15 (D26). -/
theorem setKeyWritesOneFlag : Obligations.SetKeyWritesOneFlag := by
  unfold Obligations.SetKeyWritesOneFlag
  intro s p
  constructor
  · intro k
    exact ⟨s.setKey k.val p, rfl, (s.get_setKey k k p).trans (if_pos rfl),
      fun j hj => (s.get_setKey k j p).trans (if_neg hj), s.setKey_frame k.val p⟩
  · intro index h
    exact congrArg Host.Outcome.next (s.setKey_of_ge p h)

/-! ### The host's load (R220) -/

theorem State.load_of_le (s : State) {bytes : List Byte} (h : bytes.length ≤ 3584) :
    s.load bytes = .ok { s.writeBytes Config.progBase bytes with FB := Framebuffer.clear } :=
  if_neg (Nat.not_lt.mpr h)

theorem State.load_of_gt (s : State) {bytes : List Byte} (h : 3584 < bytes.length) : s.load bytes = .error .romTooLarge :=
  if_pos h

theorem perform_load_of_ok {s t : State} {bytes : List Byte} (h : s.load bytes = .ok t) :
    perform (.load bytes) s = .next t := by
  rw [perform, State.afterLoad, h]

theorem perform_load_of_error {s : State} {bytes : List Byte} {e : LoadError} (h : s.load bytes = .error e) :
    perform (.load bytes) s = .next s := by
  rw [perform, State.afterLoad, h]

/-- Settles O53: the bytes are one run written from 0x200 on, and a clear display reads as off at every pixel. -/
theorem loadCopiesTheRom : Obligations.LoadCopiesTheRom := by
  unfold Obligations.LoadCopiesTheRom
  intro s bytes
  constructor
  · intro hlen
    have hload := s.load_of_le hlen
    exact ⟨_, hload, perform_load_of_ok hload, fun _ => s.readByte_writeBytes_of_lt,
      fun _ => s.readByte_writeBytes_of_outside, Framebuffer.pixel_clear,
      congrArg (fun t : State => { t with FB := Framebuffer.clear }) (s.writeBytes_frame bytes Config.progBase)⟩
  · intro hlen
    have hload := s.load_of_gt hlen
    exact ⟨hload, perform_load_of_error hload⟩

/-! ### The halt on an invalid word (R201, D8) -/

theorem State.runWord_of_reject {s : State} {w : Word} {e : Reject} (h : decodeWord s.cfg.extJpV0 w = .error e) :
    s.runWord w = raise (.invalidOpcode w) s.advance := by
  rw [State.runWord, h]

/-- Settles O7: the decoder rejects the table's invalid words, and the fault is raised after the advance. -/
theorem invalidWordHaltsTheMachine : Obligations.InvalidWordHaltsTheMachine := by
  unfold Obligations.InvalidWordHaltsTheMachine
  intro s w hready hpc hw hinvalid
  have hfetch : s.fetch = .ok w := by
    rw [s.fetch_ok hpc, hw]
    rfl
  have hreject := (invalidWordsAreTheTablesWords s.cfg.extJpV0 w).1 hinvalid
  calc step s
    _ = s.runWord w := hready.step_of_fetch_ok hfetch
    _ = raise (.invalidOpcode w) s.advance := State.runWord_of_reject hreject

/-! ### The halted machine (R208, R209, R215) -/

theorem tick_of_halted {s : State} (h : s.HALTED = true) : tick s = .next s := if_pos h

theorem State.tickReport_of_halted {s : State} (h : s.HALTED = true) : s.tickReport = s.FAULT := if_pos h

theorem State.tickReport_of_running {s : State} (h : s.HALTED = false) : s.tickReport = none :=
  if_neg (Bool.eq_false_iff.mp h)

/-- Settles O9: only `tick()` tests the halt, so the timer's and the host's calls do what they do in every state (D20). -/
theorem haltedMachineOnlyReports : Obligations.HaltedMachineOnlyReports := by
  unfold Obligations.HaltedMachineOnlyReports
  intro s hhalted
  refine ⟨tick_of_halted hhalted, State.tickReport_of_halted hhalted, ?_, ?_, ?_, ?_, ?_, s.hostReset, rfl, rfl, rfl⟩
  · obtain ⟨t, hnext, hDT, hST, hframe⟩ := timerTickSaturates s
    exact ⟨t, hnext, hframe, hDT, hST⟩
  · exact fun k p => (setKeyWritesOneFlag s p).1 k
  · exact fun index p => (setKeyWritesOneFlag s p).2 index
  · intro bytes hlen
    obtain ⟨t, -, hloaded⟩ := (loadCopiesTheRom s bytes).1 hlen
    exact ⟨t, hloaded⟩
  · exact fun bytes hlen => ((loadCopiesTheRom s bytes).2 hlen).2

/-! ### A next state after every call (R206, R226) -/

theorem State.runWord_next (s : State) (w : Word) : ∃ t, s.runWord w = .next t := by
  cases hdec : decodeWord s.cfg.extJpV0 w with
  | ok i =>
    rw [State.runWord_of_decode hdec]
    exact exec_next i s.advance
  | error e => exact ⟨_, State.runWord_of_reject hdec⟩

theorem tick_next (s : State) : ∃ t, tick s = .next t := by
  unfold tick
  split
  case isTrue => exact ⟨s, rfl⟩
  case isFalse =>
    split
    case h_1 x _ => exact ⟨s.waitCheck x, rfl⟩
    case h_2 =>
      split
      case h_1 w _ => exact s.runWord_next w
      case h_2 f _ => exact ⟨_, rfl⟩

theorem perform_next (c : Call) (s : State) : ∃ t, perform c s = .next t := by
  cases c with
  | tick => exact tick_next s
  | tickTimers | setKey | load | reset => exact ⟨_, rfl⟩

theorem step_next (s : State) : ∃ t, step s = .next t := by
  cases hsched : s.schedule with
  | nil =>
    rw [step_of_schedule_nil hsched]
    exact tick_next s
  | cons c rest =>
    rw [(stepPerformsTheScheduledCall s c rest).1 hsched]
    exact perform_next c _

/-- A halted machine has its fault on record: the half of R22 that a tick's report rests on. -/
def State.HaltRecorded (s : State) : Prop := s.HALTED = true → s.FAULT ≠ none

theorem State.HaltRecorded.of_fault {s : State} {f : Fault} (h : s.FAULT = some f) : s.HaltRecorded :=
  fun _ hnone => Option.some_ne_none f (h.symm.trans hnone)

theorem Effect.haltRecorded {s t : State} {i : Instr} (he : Effect s i t) (h : s.HaltRecorded) : t.HaltRecorded := by
  cases he with
  | skip =>
    rw [State.HaltRecorded, State.skipIf_HALTED, State.skipIf_FAULT]
    exact h
  | fault => exact .of_fault rfl
  | _ => exact h

theorem State.HaltRecorded.waitCheck {s : State} (h : s.HaltRecorded) (x : Reg) : (s.waitCheck x).HaltRecorded := by
  obtain heq | heq := s.waitCheck_cases x
  · rw [heq]
    exact h
  · rw [heq]
    exact h

theorem State.HaltRecorded.tick {s t : State} (h : s.HaltRecorded) (ht : tick s = .next t) : t.HaltRecorded := by
  cases tick_effect ht with
  | halted => exact h
  | waiting => exact h.waitCheck _
  | fetchFault | invalid => exact .of_fault rfl
  | runs _ _ _ _ hi => exact (exec_effect hi).haltRecorded h

theorem State.HaltRecorded.report {s : State} (h : s.HaltRecorded) : (s.HALTED = false ∧ s.tickReport = none) ∨
    (s.HALTED = true ∧ ∃ f, s.FAULT = some f ∧ s.tickReport = some f) := by
  cases hhalted : s.HALTED with
  | false => exact .inl ⟨rfl, State.tickReport_of_running hhalted⟩
  | true =>
    obtain ⟨f, hf⟩ := Option.ne_none_iff_exists'.mp (h hhalted)
    exact .inr ⟨rfl, f, hf, (State.tickReport_of_halted hhalted).trans hf⟩

/-- Settles O10: every call answers a next state, and a tick keeps a halt's fault on record, which is what it reports. -/
theorem everyStepAnswersANextState : Obligations.EveryStepAnswersANextState := by
  unfold Obligations.EveryStepAnswersANextState
  refine ⟨step_next, fun s hrec => ?_⟩
  obtain ⟨t, ht⟩ := tick_next s
  exact ⟨t, ht, (State.HaltRecorded.tick hrec ht).report⟩

end Sys2Proof.Machine
end

section
/-! PROOFS. `reset()` (70_reset_and_hazards.md R240) and the finished program (R244 c). -/

namespace Sys2Proof.Machine

open Sys2Proof

/-! ### What `reset()` leaves (R26, R240) -/

/-- Memory after `reset()`: no cell is listed, so it reads as the font of the machine and zeros (R26). -/
theorem State.readByte_hostReset (s : State) (a : Nat) : s.hostReset.readByte a = Memory.resetByte s.cfg.font a :=
  State.readByte_of_MEM_nil s.hostReset_MEM a

theorem State.getV_hostReset (s : State) (r : Reg) : s.hostReset.getV r = 0 := by
  rw [State.getV, State.hostReset_V, Vector.get_eq_getElem, Vector.getElem_replicate]

theorem State.get_STACK_hostReset (s : State) (k : Fin 16) : s.hostReset.STACK.get k = 0 := by
  rw [State.hostReset_STACK, Vector.get_eq_getElem, Vector.getElem_replicate]

/-- Settles O54: the state is `hostReset`; memory, the display, the registers and the stack are read elementwise. -/
theorem resetGivesTheResetValues : Obligations.ResetGivesTheResetValues := by
  unfold Obligations.ResetGivesTheResetValues
  intro s
  have hfont (a : Nat) (h : a < 80) : s.hostReset.readByte a = s.cfg.font[a] :=
    (s.readByte_hostReset a).trans (Memory.resetByte_of_lt _ h)
  have hzero (a : Nat) (h : 80 ≤ a) : s.hostReset.readByte a = 0 :=
    (s.readByte_hostReset a).trans (Memory.resetByte_of_ge _ h)
  exact ⟨s.hostReset, rfl, hfont, hzero, Framebuffer.pixel_clear, rfl, rfl, rfl, s.getV_hostReset, rfl, rfl,
    s.get_STACK_hostReset, rfl, rfl, rfl, rfl, rfl, rfl, rfl, rfl⟩

/-! ### The self-jump (R244 c) -/

/-- `JP nnn` at any `PC`: the advance is overwritten by the target (R84, R102). -/
theorem State.runWord_jp (s : State) (nnn : Imm12) : s.runWord (0x1#4 ++ nnn) = .next (s.jump (zext16 nnn)) :=
  State.runWord_of_decode (decodeWord_encode (i := .jp nnn) rfl)

theorem State.jump_of_PC {s : State} {target : Word} (h : s.PC = target) : s.jump target = s := by
  subst h
  rfl

/-- Settles O60: the tick runs the jump, whose target is the `PC` it was fetched from. -/
theorem finishedProgramStaysFinished : Obligations.FinishedProgramStaysFinished := by
  unfold Obligations.FinishedProgramStaysFinished
  rintro s ⟨hrun, hwait, nnn, hfetch, hpc⟩ hsched
  have hready : s.ready := ⟨hsched, hrun, hwait⟩
  have htarget : s.PC = zext16 nnn := BitVec.eq_of_toNat_eq (hpc.trans (toNat_zext16 nnn).symm)
  calc step s
    _ = s.runWord (0x1#4 ++ nnn) := hready.step_of_fetch_ok hfetch
    _ = .next (s.jump (zext16 nnn)) := s.runWord_jp nnn
    _ = .next s := by rw [State.jump_of_PC htarget]

end Sys2Proof.Machine
end
